-- ==== Sys2Proof/Word.lean ====
section
/-! DEFINITION. The block's one word type (00_scope.md R6): a byte, unsigned 0..255. Indices and lengths are plain natural
numbers, so that no sum wraps (R6, R160, R163). -/

namespace Sys2Proof

/-- A byte (R6). -/
abbrev Byte := BitVec 8

end Sys2Proof
end

