-- ==== Sys2Proof/Config.lean ====
section
/-! DEFINITION. What an implementation fixes (00_scope.md R5). The spec leaves no value to a draw (44_laws.md R174), so there is
no free value here. `CHUNK_TAIL`, `MAXLEN` and `ADDR_MAP` are model arguments of the spec: their settings stand in State (log 1,
log 22), the defaults of the first two here. -/

namespace Sys2Proof

/-- `CHUNK_TAIL`: what the accumulator does after a run whose length is a positive multiple of 254 (R5, R87, R88, D5). -/
inductive ChunkTail where
  /-- nothing more (R87) -/
  | plain
  /-- one more, empty, chunk (R88) -/
  | pad
deriving DecidableEq, Repr

namespace Config

/-- `MAXCHUNK`: the most data bytes one packed group carries; fixed (R5, R27, D4). -/
def maxChunk : Nat := 254

/-- `FULL`: the length byte that means "chunk is full, no delimiter follows" (R5). -/
def full : Byte := 255

/-- The default delimiter (R5, R26, R221). -/
def defaultDelim : Byte := 0

/-- The default of `CHUNK_TAIL` (R5, R87, D5). -/
def defaultChunkTail : ChunkTail := .plain

/-- The default of `MAXLEN`: no bound (R5, D6). -/
def defaultMaxLen : Option Nat := none

end Config

end Sys2Proof
end

