-- ==== Sys2Proof/Syntax.lean ====
section
/-! DEFINITION. The instructions: one constructor for each row of spec/opcode_table.json (30_encoding.md R67). -/

namespace Sys2Proof

/-- The ten rows of the opcode map (R67). The first four stand in a frame and are interpreted by DECODE; ENCODE and DECODE are
host commands; SPLIT, CHUNK and PACK are the units inside ENCODE, with their operands written out; SCAN is the host's, its
received bytes are the host's own state. -/
inductive Instr where
  /-- GRP: a packed group with length byte `L` in 1..254; its data bytes stand behind it in the frame (R128). -/
  | grp (L : Byte)
  /-- GRPF: a full packed group, length byte 255 (R130). -/
  | grpf
  /-- RSV0: the reserved length byte 0 (R129). -/
  | rsv0
  /-- TERM: the terminal delimiter, selected by position (R62, R131). -/
  | term
  /-- ENCODE, a host command (R103, R104). -/
  | encode
  /-- DECODE, a host command (R120, R121). -/
  | decode
  /-- SPLIT: the delimiter scanner on the buffer `b` with delimiter `D` (R80, R81). -/
  | split (b : List Byte) (D : Byte)
  /-- CHUNK: the byte-run accumulator on one run `r` (R86-R88). -/
  | chunk (r : List Byte)
  /-- PACK: the length-prefix group packer on one chunk `c` (R100, R101). -/
  | pack (c : List Byte)
  /-- SCAN: the host's frame scan of the received bytes with delimiter `D` (R151). -/
  | scan (D : Byte)
deriving DecidableEq, Repr

end Sys2Proof
end

