-- ==== Sys2Proof/WellFormed.lean ====
section
/-! DEFINITION. Which instruction terms the spec gives a meaning (30_encoding.md R65, 41_encoder.md R100). -/

namespace Sys2Proof

/-- The operand checks: a GRP's length byte is in 1..254 (R65, R128); a chunk given to PACK has at most 254 bytes (R100). Every
other row is legal with every operand. -/
def Instr.wf : Instr → Bool
  | .grp L => 1 ≤ L.toNat && L.toNat ≤ 254
  | .grpf => true
  | .rsv0 => true
  | .term => true
  | .encode => true
  | .decode => true
  | .split _ _ => true
  | .chunk _ => true
  | .pack c => c.length ≤ Config.maxChunk
  | .scan _ => true

end Sys2Proof
end

