-- ==== Sys2Proof/Decode.lean ====
section
/-! DEFINITION. The decoder and the encoder of the block's two instruction spaces: the bytes of a frame (30_encoding.md R60-R67,
42_decoder.md R125) and the one-bit command register (10_state.md R25). -/

namespace Sys2Proof

/-- Why bytes are no instruction. -/
inductive DecodeError where
  /-- There is no byte left: the frame ended before its terminal delimiter's place. -/
  | endOfFrame
deriving DecidableEq, Repr

/-- The dispatch of R125 on the byte at `pos < last`: "`L = 0` is `RSV0`; `1 <= L <= 254` is `GRP`; `L = 255` is `GRPF`". The
byte is a length whatever its value, also when it equals DELIM. -/
def decodeGroupByte (L : Byte) : Instr :=
  if L = 0 then .rsv0 else if L = Config.full then .grpf else .grp L

/-- The decoder, total on any bytes: `bs` are the frame's bytes from `pos` to its end. A byte with nothing behind it stands at
the last index and is TERM whatever its value (R62, R65); any other byte is a length byte. -/
def decodeBytes : List Byte → Except DecodeError Instr
  | [] => .error .endOfFrame
  | [_] => .ok .term
  | L :: _ :: _ => .ok (decodeGroupByte L)

/-- The encoder: the byte an instruction of a frame has in it, with delimiter `D` (R60, R65). The other rows have no bit pattern
in a frame (R67). -/
def encode (D : Byte) : Instr → Option (List Byte)
  | .grp L => some [L]
  | .grpf => some [Config.full]
  | .rsv0 => some [0]
  | .term => some [D]
  | .encode => none
  | .decode => none
  | .split _ _ => none
  | .chunk _ => none
  | .pack _ => none
  | .scan _ => none

/-- The command a write of `CMD.OP` starts: 0 = ENCODE, 1 = DECODE (R25). -/
def decodeCmd (op : BitVec 1) : Instr := if op = 0 then .encode else .decode

/-- The value of `CMD.OP` that starts a host command (R25). -/
def encodeCmd : Instr → Option (BitVec 1)
  | .grp _ => none
  | .grpf => none
  | .rsv0 => none
  | .term => none
  | .encode => some 0
  | .decode => some 1
  | .split _ _ => none
  | .chunk _ => none
  | .pack _ => none
  | .scan _ => none

/-- One line of a frame's listing (R74): an instruction and the data bytes behind it. -/
structure Line where
  instr : Instr
  data  : List Byte
deriving DecidableEq, Repr

/-- A packed group as a frame may hold it: a GRP or a GRPF with exactly `L - 1` data bytes (R60, R61). -/
def lineWf (l : Line) : Bool :=
  match l.instr with
  | .grp L => l.instr.wf && l.data.length + 1 == L.toNat
  | .grpf => l.data.length + 1 == Config.full.toNat
  | _ => false

/-- The bytes of one line: its length byte and its data (R60). -/
def lineBytes (D : Byte) (l : Line) : List Byte := (encode D l.instr).getD [] ++ l.data

/-- A frame from its packed groups: the groups in order, then the terminal delimiter (R60). -/
def assemble (D : Byte) (ls : List Line) : List Byte := ls.flatMap (lineBytes D) ++ [D]

/-- A frame read back into its listing, group after group by the lengths alone (R61, R74); none where a length byte is reserved
or runs past the terminal delimiter's place (R68, R69), or there is no byte. The first argument bounds the number of groups. -/
def disassemble : Nat → List Byte → Option (List Line)
  | _, [] => none
  | _, [_] => some [⟨.term, []⟩]
  | 0, _ :: _ :: _ => none
  | n + 1, L :: b :: bs =>
    if L = 0 then none
    else if (b :: bs).length < L.toNat then none
    else (disassemble n ((b :: bs).drop (L.toNat - 1))).map
      (fun ls => ⟨decodeGroupByte L, (b :: bs).take (L.toNat - 1)⟩ :: ls)

/-- The longest packed group in bytes (R61). -/
def longestGroup : Nat := 255

/-- The bytes of the instruction whose bits are `w`, byte `k` being bits `8k+7..8k`, as a frame stores them; every bit from
`nbits` up is 0. -/
def tableBytes (nbits w : Nat) : List Byte :=
  (List.range longestGroup).map (fun k => if 8 * k < nbits then BitVec.ofNat 8 (w / 2 ^ (8 * k)) else 0)

/-- The decoder on a row's word, numbered as spec/opcode_table.json numbers it. The instruction is read where a packed group
stands, with a byte behind it: TERM is selected by position, not by its bits, so no word alone is TERM (R62, log 16). -/
def decodeTableWord (nbits w : Nat) : Option Instr :=
  if nbits < 8 then none
  else match decodeBytes (tableBytes nbits w ++ [Config.defaultDelim]) with
    | .ok i => some i
    | .error _ => none

end Sys2Proof
end

