-- ==== Sys2Proof/Machine/State.lean ====
section
/-! DEFINITION. The state of one instance of the COBS framing engine and of the host beside it, as plain data; why a step can
stop; the state after reset. The list under '## State' of INVENTORY.md says where each field comes from. -/

namespace Sys2Proof.Machine

/-- A byte-indexed buffer in its canonical form: cells at strictly rising indices. An unlisted index holds no readable byte: the
contents of the buffers after reset are unspecified and must not be read (10_state.md R34, U5; log 4). -/
abbrev Memory := List Host.Cell

/-- `CMD.OP` (R25). -/
inductive Op where
  | encode
  | decode
deriving DecidableEq, Repr

/-- `STATUS.PHASE` (R25, R28). -/
inductive Phase where
  | idle
  | busy
  | doneOk
  | doneErr
deriving DecidableEq, Repr

/-- The one exception of the block, with its two causes (60_exceptions.md R190-R192). -/
inductive CorruptFrame where
  /-- cause 1: the last byte is not the delimiter, or the frame is empty (R191) -/
  | missingTerminalDelimiter
  /-- cause 2: a group runs past the frame, or its length byte is 0 (R192) -/
  | invalidChunkLength
deriving DecidableEq, Repr

/-- The registers a host can name (R25). -/
inductive Reg where
  | cfgDelim
  | cfgMaxchunk
  | cmdOp
  | statusPhase
  | statusCause
  | inLen
  | outLen
deriving DecidableEq, Repr

/-- One entry of `ADDR_MAP`: where a platform puts a register or a buffer in a host's address space (R5, R47, U11; the spec fixes
no address, the form is the model's, log 22). -/
inductive Window where
  /-- a register stands at one address and is accessed whole there -/
  | register (addr : Nat) (r : Reg)
  /-- `IN[0 .. size)` from an address on, one byte an address -/
  | input (base size : Nat)
  /-- `OUT[0 .. size)` from an address on, one byte an address -/
  | output (base size : Nat)
deriving DecidableEq, Repr

/-- What one address of the host names (R47). -/
inductive Place where
  | register (r : Reg)
  | inByte (idx : Nat)
  | outByte (idx : Nat)
deriving DecidableEq, Repr

/-- The result of the last evaluation of a segmentation unit (the model's own field, log 6). -/
inductive UnitResult where
  | none
  /-- SPLIT's list of runs (R81) -/
  | runs (rs : List (List Byte))
  /-- CHUNK's list of chunks (R87, R88) -/
  | chunks (cs : List (List Byte))
  /-- PACK's packed group (R101) -/
  | group (g : List Byte)
deriving DecidableEq, Repr

/-- What SCAN gives (43_host_stream.md R151). -/
inductive ScanResult where
  | noFrameYet
  | frame (f : List Byte) (rest : List Byte)
deriving DecidableEq, Repr

/-- One action of the host (R25, R150-R157, R222, R223). -/
inductive HostAction where
  /-- wait while the engine takes one step -/
  | letEngineStep
  /-- issue an instruction that is not part of a frame: a command, SCAN, or an evaluation of a unit (log 6) -/
  | issue (i : Instr)
  /-- write a register; a write of `CMD.OP` starts an operation -/
  | writeReg (r : Reg) (v : Nat)
  /-- read a register -/
  | readReg (r : Reg)
  /-- write one byte of `IN` -/
  | writeIn (idx : Nat) (b : Byte)
  /-- hand over a whole input buffer: `IN` and `IN_LEN` (R223) -/
  | loadIn (bs : List Byte)
  /-- provide an `OUT` of the given size, none = as large as needed (R223, log 2) -/
  | provideOut (size : Option Nat)
  /-- read one byte of `OUT` -/
  | readOut (idx : Nat)
  /-- read what the platform's `ADDR_MAP` puts at an address (R47) -/
  | readAt (addr : Nat)
  /-- write what the platform's `ADDR_MAP` puts at an address (R47) -/
  | writeAt (addr v : Nat)
  /-- the transport delivers bytes -/
  | receive (bs : List Byte)
  /-- pass the scanned frame to the block: it becomes `IN` (R153) -/
  | passFrame
  /-- write the finished frame to the stream (R152) -/
  | sendFrame
  /-- reset the block (R34, R222) -/
  | resetBlock
deriving DecidableEq, Repr

/-- Why the machine stops with a fault. -/
inductive Fault where
  /-- raised by a read of `IN` at an index below `IN_LEN` that the host never wrote: its contents are unspecified and must not
  be read (R34, R223). Safe: the machine stops where the hardware would read some byte. -/
  | inUnwritten (idx : Nat)
  /-- raised by a read of `IN` at an index `>= IN_LEN`, which has "no defined meaning" (20_memory.md R43). Safe: no rule reads
  there. -/
  | inOutOfRange (idx : Nat)
deriving DecidableEq, Repr

/-- Why an instruction, a launch or an access has no meaning. -/
inductive Refusal where
  /-- raised by an arm of exec whose instruction has no meaning yet. Safe. -/
  | notModelled (mnemonic : String)
  /-- raised by a term that WellFormed refuses (R65, R100). Safe: no bytes of a frame decode to it. -/
  | illFormed
  /-- raised by GRP, GRPF or RSV0 when no DECODE is BUSY with `pos < last`: its operands `pos` and `last` are then unspecified or
  it is not at a length byte (R34, R124, R125). Safe. -/
  | noGroupHere
  /-- raised by TERM when no DECODE is BUSY with `pos = last` (R131). Safe. -/
  | notAtTerm
  /-- raised by an engine step with `pos > last`, which never occurs (R124). Safe. -/
  | posPastLast
  /-- raised by an engine step with `i > |IN|`, which never occurs (R24). Safe. -/
  | indexPastEnd
  /-- raised by ENCODE and DECODE when `IN_LEN` exceeds a finite `MAXLEN` (20_memory.md R46, U8). Safe. -/
  | inputTooLong
  /-- raised by an append that does not fit the `OUT` the host provided (U10). Safe. -/
  | outTooSmall
  /-- raised by a host that changes `IN`, `IN_LEN` or `OUT` while BUSY (R50, R53, R157, U6). Safe. -/
  | bufferBusy
  /-- raised by a host that reads or writes `CFG.DELIM` while BUSY: R25 gives the access only while not BUSY, and a write then has
  no meaning and no effect (R26, R157, D3, D16, U6; log 8). Safe. -/
  | registerBusy
  /-- raised by a host read of `OUT` outside DONE_OK or at an index `>= OUT_LEN` (R34, R197, U4, U5). Safe. -/
  | outNotReadable
  /-- raised by a host write of a read-only register (R25, R27). Safe. -/
  | readOnlyRegister
  /-- raised by a host read of a register R25 gives only for writing. Safe. -/
  | writeOnlyRegister
  /-- raised by a host write of a value that does not fit the register (R25) or, by address, a byte of `IN` (log 24). Safe. -/
  | valueTooWide
  /-- raised by a host access of an address at which `ADDR_MAP` puts nothing (R47, U11; log 22). Safe. -/
  | noSuchAddress
  /-- raised by a host read of `IN` or a host write of `OUT` by address: R32 gives `IN` to the host for writing and `OUT` for
  reading only (log 22). Safe. -/
  | bufferAccessNotGiven
  /-- raised by passing a frame when SCAN has given none: "A partial frame ... is never passed to DECODE" (R153). Safe. -/
  | noFrameToPass
  /-- raised by a host that issues GRP, GRPF, RSV0 or TERM: they stand in frames only (R67). Safe. -/
  | notAHostCommand
deriving DecidableEq, Repr

/-- One instance of the block, its parameters, and the host beside it. -/
structure State where
  /-- `CHUNK_TAIL`, a parameter no step changes (R5, log 1) -/
  chunkTail : ChunkTail
  /-- `MAXLEN`, a parameter no step changes; none = no bound (R5, log 1) -/
  maxLen    : Option Nat
  /-- `ADDR_MAP`, a parameter no step changes: the platform's addresses, none of which the spec fixes (R5, R47, U11; log 22) -/
  addrMap   : List Window
  /-- `CFG.DELIM` (R26) -/
  cfgDelim  : Byte
  /-- `CMD.OP`: the operation last started (R25, log 26) -/
  cmdOp     : Op
  /-- `STATUS.PHASE` (R28) -/
  phase     : Phase
  /-- `STATUS.CAUSE`, none = 0 (R28) -/
  cause     : Option CorruptFrame
  /-- `IN_LEN` (R25) -/
  inLen     : Nat
  /-- `OUT_LEN` (R25) -/
  outLen    : Nat
  /-- `IN` (R32) -/
  inBuf     : Memory
  /-- `OUT` (R32, R44) -/
  outBuf    : Memory
  /-- the size of the `OUT` the host last provided; none = as large as needed. DESIGN CHOICE: it serves every operation until
  another is provided (R223, log 2) -/
  outCap    : Option Nat
  /-- |OUT| so far, the next free index (R8) -/
  outIdx    : Nat
  /-- the decoder's position counter (R23, R29) -/
  pos       : Nat
  /-- the index of the frame's final byte (R29) -/
  last      : Nat
  /-- the encoder's input index (R24, R30) -/
  i         : Nat
  /-- the byte-run accumulator (R30) -/
  acc       : List Byte
  /-- the result of the last evaluation of a unit (log 6) -/
  unitOut   : UnitResult
  /-- the host's pending actions, the next one first (R157, log 5) -/
  script    : List HostAction
  /-- what the host's last read gave it (log 17) -/
  readPort  : Nat
  /-- the bytes received and not yet consumed (R151, R153) -/
  rx        : List Byte
  /-- the bytes written to the stream (R152) -/
  tx        : List Byte
  /-- what the last SCAN gave (R151); a frame not yet passed is dropped by the next SCAN (DESIGN CHOICE, log 18) -/
  scanned   : ScanResult
deriving DecidableEq, Repr

/-- The machine right after reset (R34, R220): IDLE, CAUSE 0, DELIM 0, OP 0, lengths 0; no byte of a buffer readable. The working
registers are unspecified there; the values below are the model's (log 3). Nothing is pending: no operation starts by itself. -/
def State.reset : State where
  chunkTail := Config.defaultChunkTail
  maxLen := Config.defaultMaxLen
  addrMap := []
  cfgDelim := Config.defaultDelim
  cmdOp := .encode
  phase := .idle
  cause := none
  inLen := 0
  outLen := 0
  inBuf := []
  outBuf := []
  outCap := none
  outIdx := 0
  pos := 0
  last := 0
  i := 0
  acc := []
  unitOut := .none
  script := []
  readPort := 0
  rx := []
  tx := []
  scanned := .noFrameYet

end Sys2Proof.Machine
end

