-- ==== Sys2Proof/Machine/Flags.lean ====
section
/-! DEFINITION. The only status flags, `STATUS.PHASE` and `STATUS.CAUSE` (10_state.md R28), written together, and the numbers a
host reads from them. There are no condition codes, no carry and no overflow flag (R28). -/

namespace Sys2Proof.Machine

/-- The number of `CMD.OP` (R25). -/
def opCode : Op → BitVec 1
  | .encode => 0
  | .decode => 1

/-- The number of `STATUS.PHASE` (R25). -/
def phaseCode : Phase → BitVec 2
  | .idle => 0
  | .busy => 1
  | .doneOk => 2
  | .doneErr => 3

/-- The code of a cause (R191-R193). -/
def causeNumber : CorruptFrame → BitVec 2
  | .missingTerminalDelimiter => 1
  | .invalidChunkLength => 2

/-- The number of `STATUS.CAUSE`: 0 = none (R25, R193). -/
def causeCode : Option CorruptFrame → BitVec 2
  | none => 0
  | some c => causeNumber c

/-- A start command sets PHASE to BUSY and CAUSE to 0, and clears OUT_LEN (R28, R200). -/
def State.setBusy (s : State) : State := { s with phase := .busy, cause := none, outLen := 0 }

/-- An operation that has produced a buffer: DONE_OK, CAUSE 0, OUT_LEN the number of bytes in OUT (R28, R106, R121). -/
def State.setDoneOk (s : State) : State := { s with phase := .doneOk, cause := none, outLen := s.outIdx }

/-- A DECODE that raised `CorruptFrame(c)`: DONE_ERR, the cause code, OUT_LEN 0 (R28, R196). -/
def State.setDoneErr (c : CorruptFrame) (s : State) : State :=
  { s with phase := .doneErr, cause := some c, outLen := 0 }

end Sys2Proof.Machine
end

