-- ==== Sys2Proof/Machine/Ops.lean ====
section
/-! DEFINITION. The named operations over buffers and registers: reading and writing one byte, reading `IN`, appending to `OUT`,
starting an operation, raising `CorruptFrame`, reading a register. -/

namespace Sys2Proof.Machine

/-- Go on with the value of a first outcome, or stop as it stops. -/
def andThen {α β : Type} (o : Host.Outcome α Fault Refusal) (f : α → Host.Outcome β Fault Refusal) :
    Host.Outcome β Fault Refusal :=
  match o with
  | .next a => f a
  | .fault r => .fault r
  | .refused r => .refused r

/-- The byte listed at an index, if any. -/
def Memory.read : Memory → Nat → Option Byte
  | [], _ => none
  | (a', b') :: m, a => if a = a' then some b' else Memory.read m a

/-- Write one byte, in its place by index. -/
def Memory.write : Memory → Nat → Byte → Memory
  | [], a, b => [(a, b)]
  | (a', b') :: m, a, b =>
    if a < a' then (a, b) :: (a', b') :: m
    else if a = a' then (a, b) :: m
    else (a', b') :: Memory.write m a b

/-- Write bytes at consecutive indices, the first one first (R8, R44). -/
def Memory.writeBytes : Memory → Nat → List Byte → Memory
  | m, _, [] => m
  | m, a, b :: bs => Memory.writeBytes (Memory.write m a b) (a + 1) bs

/-- The `n` bytes from index `a`, if all are listed. -/
def Memory.readRange (m : Memory) (a : Nat) : Nat → Option (List Byte)
  | 0 => some []
  | n + 1 =>
    match Memory.read m a, Memory.readRange m (a + 1) n with
    | some b, some bs => some (b :: bs)
    | _, _ => none

/-- The cells of `bs` at consecutive indices from `a`. -/
def Memory.cellsFrom : Nat → List Byte → Memory
  | _, [] => []
  | a, b :: bs => (a, b) :: Memory.cellsFrom (a + 1) bs

/-- A buffer that holds exactly `bs`, from index 0. -/
def Memory.ofBytes (bs : List Byte) : Memory := Memory.cellsFrom 0 bs

/-- The canonical form: indices strictly rising. An unlisted index reads as nothing, so no listed cell can repeat it. -/
def Memory.wf : Memory → Bool
  | [] => true
  | [_] => true
  | (a, _) :: (a', b') :: m => a < a' && Memory.wf ((a', b') :: m)

/-- The bytes of `IN`, if the host has written all of them (R32). -/
def State.input (s : State) : Option (List Byte) := s.inBuf.readRange 0 s.inLen

/-- The bytes appended to `OUT` so far (R29, R30). -/
def State.output (s : State) : Option (List Byte) := s.outBuf.readRange 0 s.outIdx

/-- Read `IN[idx]` (20_memory.md R43). -/
def readIn (idx : Nat) (s : State) : Host.Outcome Byte Fault Refusal :=
  if idx < s.inLen then
    match s.inBuf.read idx with
    | some b => .next b
    | none => .fault (.inUnwritten idx)
  else .fault (.inOutOfRange idx)

/-- Read the bytes `IN[idx .. idx+n)`, in ascending order (R43). -/
def readInRange (idx : Nat) : Nat → State → Host.Outcome (List Byte) Fault Refusal
  | 0, _ => .next []
  | n + 1, s =>
    andThen (readIn idx s) fun b => andThen (readInRange (idx + 1) n s) fun bs => .next (b :: bs)

/-- Whether `n` more bytes fit the `OUT` the host provided (R46, U10). -/
def State.hasRoom (s : State) (n : Nat) : Bool :=
  match s.outCap with
  | none => true
  | some c => s.outIdx + n ≤ c

/-- `OUT` with `bs` written at its next free indices (R8, R44). -/
def State.pushOut (bs : List Byte) (s : State) : State :=
  { s with outBuf := s.outBuf.writeBytes s.outIdx bs, outIdx := s.outIdx + bs.length }

/-- `OUT <- OUT ++ bs` (R8, R44); refused where `OUT` is too small, and then none of `bs` is written (U10, log 2). -/
def appendOut (bs : List Byte) (s : State) : Host.Outcome State Fault Refusal :=
  if s.hasRoom bs.length then .next (s.pushOut bs) else .refused .outTooSmall

/-- `OUT <- []` (R44). -/
def State.discardOut (s : State) : State := { s with outBuf := [], outIdx := 0 }

/-- Taking the exception, `raise CorruptFrame(c)` (60_exceptions.md R196): the operation ends; PHASE DONE_ERR, CAUSE the code,
OUT_LEN 0; the bytes in OUT are discarded (R134, R197, log 12). No handler, no saved position, no mode. -/
def raiseCorruptFrame (c : CorruptFrame) (s : State) : Host.Outcome State Fault Refusal :=
  .next (s.discardOut.setDoneErr c)

/-- What every start does; there is no return from the exception, a start is what clears it (R200): OP is the operation, PHASE
BUSY, CAUSE and OUT_LEN cleared, OUT empty (R28, R106, R124). -/
def State.startOperation (op : Op) (s : State) : State := { s.discardOut.setBusy with cmdOp := op }

/-- Whether the input is longer than a finite `MAXLEN` (R46). -/
def State.tooLong (s : State) : Bool :=
  match s.maxLen with
  | none => false
  | some m => m < s.inLen

/-- A start command (R28): without effect while BUSY (D22, log 7), refused on an input longer than `MAXLEN` (U8), otherwise the
previous result is cleared and `body` starts the engine. -/
def launch (op : Op) (body : State → Host.Outcome State Fault Refusal) (s : State) :
    Host.Outcome State Fault Refusal :=
  if s.phase = .busy then .next s
  else if s.tooLong then .refused .inputTooLong
  else body (s.startOperation op)

/-- The encoder's working registers at start (R30, R106). -/
def State.startEncoder (s : State) : State := { s with i := 0, acc := [] }

/-- The decoder's working registers at start (R29, R124). -/
def State.startDecoder (s : State) : State := { s with pos := 0, last := s.inLen - 1 }

/-- A host read of a register (R25, log 17). `CFG.MAXCHUNK` is hard-wired (R27). -/
def readRegister (r : Reg) (s : State) : Host.Outcome Nat Fault Refusal :=
  match r with
  | .cfgDelim => if s.phase = .busy then .refused .registerBusy else .next s.cfgDelim.toNat
  | .cfgMaxchunk => .next Config.maxChunk
  | .cmdOp => .refused .writeOnlyRegister
  | .statusPhase => .next (phaseCode s.phase).toNat
  | .statusCause => .next (causeCode s.cause).toNat
  | .inLen => .refused .writeOnlyRegister
  | .outLen => .next s.outLen

/-- What one entry of the address map puts at an address, if anything (R47, log 22). -/
def Window.place : Window → Nat → Option Place
  | .register addr r, a => if a = addr then some (.register r) else none
  | .input base size, a => if base ≤ a ∧ a < base + size then some (.inByte (a - base)) else none
  | .output base size, a => if base ≤ a ∧ a < base + size then some (.outByte (a - base)) else none

/-- What the address map puts at an address; of two entries the earlier one (log 22). -/
def placeAt : List Window → Nat → Option Place
  | [], _ => none
  | w :: ws, a => (w.place a).or (placeAt ws a)

/-- What the platform of this instance puts at an address (R5, R47). -/
def State.locate (s : State) (addr : Nat) : Option Place := placeAt s.addrMap addr

/-- A host read of `OUT[idx]`: only in DONE_OK and below OUT_LEN (R34, R45, R197). -/
def readOutByte (idx : Nat) (s : State) : Host.Outcome Byte Fault Refusal :=
  if s.phase = .doneOk ∧ idx < s.outLen then
    match s.outBuf.read idx with
    | some b => .next b
    | none => .refused .outNotReadable
  else .refused .outNotReadable

/-- The block after a reset (R34, R222): an operation in progress is abandoned, no byte of IN or OUT is readable, the registers
have their reset values. The parameters and the host's own data are not the block's and stay (log 19). -/
def State.resetBlock (s : State) : State :=
  { State.reset with
    chunkTail := s.chunkTail, maxLen := s.maxLen, addrMap := s.addrMap, outCap := s.outCap
    script := s.script, readPort := s.readPort, rx := s.rx, tx := s.tx, scanned := s.scanned }

end Sys2Proof.Machine
end

