-- ==== Sys2Proof/Machine/Operands.lean ====
section
/-! DEFINITION. The operand forms of a frame's instructions: the length byte as a number (30_encoding.md R63, 44_laws.md
R160-R163), the data bytes behind it, the reinserted delimiter; and the places where such an instruction may be interpreted. -/

namespace Sys2Proof.Machine

/-- The number of data bytes of a group, `L - 1` (R63, R162). -/
def dataCount (L : Byte) : Nat := L.toNat - 1

/-- The position behind a group, `pos + L`, a sum of natural numbers that cannot wrap (R63, R163). -/
def State.nextPos (L : Byte) (s : State) : Nat := s.pos + L.toNat

/-- `IN[pos+1 .. pos+L)`: the group's data bytes (R126). -/
def groupData (L : Byte) (s : State) : Host.Outcome (List Byte) Fault Refusal :=
  readInRange (s.pos + 1) (dataCount L) s

/-- The delimiter a GRP reinserts: one, unless the group ends at TERM (R128). -/
def reinserted (L : Byte) (s : State) : List Byte :=
  if s.nextPos L < s.last then [s.cfgDelim] else []

/-- `pos <- pos + L` (R23). -/
def State.advance (L : Byte) (s : State) : State := { s with pos := s.nextPos L }

/-- A DECODE is in progress. -/
def State.decoding (s : State) : Bool := s.phase == .busy && s.cmdOp == .decode

/-- An ENCODE is in progress. -/
def State.encoding (s : State) : Bool := s.phase == .busy && s.cmdOp == .encode

/-- A length byte stands at `pos` (R124, R125). -/
def State.atGroup (s : State) : Bool := s.decoding && s.pos < s.last

/-- The terminal delimiter stands at `pos` (R131). -/
def State.atTerm (s : State) : Bool := s.decoding && s.pos == s.last

/-- The part GRP and GRPF share (R126, R127): the bound check before anything is copied, then the data bytes and `sep` appended
to OUT, then `pos <- pos + L`. -/
def copyGroup (L : Byte) (sep : List Byte) (s : State) : Host.Outcome State Fault Refusal :=
  if s.last < s.nextPos L then raiseCorruptFrame .invalidChunkLength s
  else
    andThen (groupData L s) fun d =>
      andThen (appendOut (d ++ sep) s) fun t => .next (t.advance L)

end Sys2Proof.Machine
end

