-- ==== Sys2Proof/Machine/Commands.lean ====
section
/-! DEFINITION. The host commands ENCODE and DECODE: the start of an operation (41_encoder.md R103, R106; 42_decoder.md
R122-R124). The engine's steps carry the operation to its end (Encoder.lean, Groups.lean); Transaction.lean holds the functions
they compute. -/

namespace Sys2Proof.Machine

/-- ENCODE (R106 start). It cannot fail (R103). -/
def execEncode (s : State) : Host.Outcome State Fault Refusal :=
  launch .encode (fun t => .next t.startEncoder) s

/-- The checks of R122 and R123, in the order of R199, then the start of the decoder (R124). -/
def beginDecode (s : State) : Host.Outcome State Fault Refusal :=
  if s.inLen = 0 then raiseCorruptFrame .missingTerminalDelimiter s
  else
    andThen (readIn (s.inLen - 1) s) fun v =>
      if v = s.cfgDelim then .next s.startDecoder else raiseCorruptFrame .missingTerminalDelimiter s

/-- DECODE (R121-R124). -/
def execDecode (s : State) : Host.Outcome State Fault Refusal := launch .decode beginDecode s

end Sys2Proof.Machine
end

