-- ==== Sys2Proof/Machine/Groups.lean ====
section
/-! DEFINITION. The instructions of a frame: GRP, GRPF, RSV0 and TERM (42_decoder.md R128-R131). -/

namespace Sys2Proof.Machine

/-- GRP (R128). -/
def execGrp (L : Byte) (s : State) : Host.Outcome State Fault Refusal :=
  if (Instr.grp L).wf then
    if s.atGroup then copyGroup L (reinserted L s) s else .refused .noGroupHere
  else .refused .illFormed

/-- GRPF (R130): nothing is reinserted, wherever the group stands. -/
def execGrpf (s : State) : Host.Outcome State Fault Refusal :=
  if s.atGroup then copyGroup Config.full [] s else .refused .noGroupHere

/-- RSV0 (R129, D8). -/
def execRsv0 (s : State) : Host.Outcome State Fault Refusal :=
  if s.atGroup then raiseCorruptFrame .invalidChunkLength s else .refused .noGroupHere

/-- TERM (R131): the operation returns `Ok(OUT)`; the byte was checked at the start and is not read again. -/
def execTerm (s : State) : Host.Outcome State Fault Refusal :=
  if s.atTerm then .next s.setDoneOk else .refused .notAtTerm

end Sys2Proof.Machine
end

