-- ==== Sys2Proof/Machine/Stream.lean ====
section
/-! DEFINITION. SCAN, the host's frame scan of a received stream (43_host_stream.md R151). It is outside the block: it writes no
state of the block and raises no exception. -/

namespace Sys2Proof.Machine

/-- `Scan(D, s)`: cut behind the first `D` (R151). -/
def scanBytes (D : Byte) : List Byte → ScanResult
  | [] => .noFrameYet
  | x :: xs =>
    if x = D then .frame [x] xs
    else
      match scanBytes D xs with
      | .noFrameYet => .noFrameYet
      | .frame f rest => .frame (x :: f) rest

/-- The host's data after a scan: a frame is cut off and the rest kept; with no frame the bytes stay buffered (R151, R153). DESIGN
CHOICE: R153 has each frame passed and does not say what becomes of one that is not yet passed when SCAN runs again; there is one
place for a frame, so it is dropped, whichever way the scan ends (log 18). -/
def State.afterScan (r : ScanResult) (s : State) : State :=
  match r with
  | .noFrameYet => { s with scanned := .noFrameYet }
  | .frame f rest => { s with scanned := .frame f rest, rx := rest }

/-- SCAN on the bytes received and not yet consumed (R151, R153). -/
def execScan (D : Byte) (s : State) : Host.Outcome State Fault Refusal :=
  .next (s.afterScan (scanBytes D s.rx))

end Sys2Proof.Machine
end

