-- ==== Sys2Proof/Machine/Units.lean ====
section
/-! DEFINITION. The units inside ENCODE as the pure functions the spec gives: the delimiter scanner SPLIT (40_segmentation.md
R81), the byte-run accumulator CHUNK (R87, R88), the length-prefix group packer PACK (41_encoder.md R101); and their
instructions, which put the result in the model's own field and touch nothing else (log 6). -/

namespace Sys2Proof.Machine

/-- `Split(D, b)`: the runs strictly between, before and after the occurrences of `D` (R80, R81). -/
def splitRuns (D : Byte) : List Byte → List (List Byte)
  | [] => [[]]
  | x :: xs =>
    if x = D then [] :: splitRuns D xs
    else
      match splitRuns D xs with
      | [] => [[x]]
      | r :: rs => (x :: r) :: rs

/-- `ceil(g / M)` (R7). -/
def ceilDiv (g M : Nat) : Nat := (g + M - 1) / M

/-- The number of chunks of a run of `g` bytes (R87, R88, R90). -/
def chunkCount (tail : ChunkTail) (g : Nat) : Nat :=
  match tail with
  | .plain => max 1 (ceilDiv g Config.maxChunk)
  | .pad => g / Config.maxChunk + 1

/-- `Chunk(r)`: chunk `t` is `r[M*t .. min(M*(t+1), g))` (R87, R88). -/
def chunkRun (tail : ChunkTail) (r : List Byte) : List (List Byte) :=
  (List.range (chunkCount tail r.length)).map
    (fun t => (r.drop (Config.maxChunk * t)).take Config.maxChunk)

/-- `Pack(c)`: the length byte `|c| + 1`, then the chunk (R101). -/
def packChunk (c : List Byte) : List Byte := BitVec.ofNat 8 (c.length + 1) :: c

/-- The unit's result is handed out; no flag, no buffer and no working register changes (R81, R86, R101). -/
def State.withUnit (u : UnitResult) (s : State) : State := { s with unitOut := u }

/-- SPLIT (R81). It cannot fail. -/
def execSplit (b : List Byte) (D : Byte) (s : State) : Host.Outcome State Fault Refusal :=
  .next (s.withUnit (.runs (splitRuns D b)))

/-- CHUNK (R87, R88), under the block's `CHUNK_TAIL`. It cannot fail. -/
def execChunk (r : List Byte) (s : State) : Host.Outcome State Fault Refusal :=
  .next (s.withUnit (.chunks (chunkRun s.chunkTail r)))

/-- PACK (R101) on a chunk of at most 254 bytes (R100). -/
def execPack (c : List Byte) (s : State) : Host.Outcome State Fault Refusal :=
  if (Instr.pack c).wf then .next (s.withUnit (.group (packChunk c))) else .refused .illFormed

end Sys2Proof.Machine
end

