-- ==== Sys2Proof/Machine/Dispatch.lean ====
section
/-! DEFINITION. The dispatch: one arm for each instruction, each one call of its meaning. -/

namespace Sys2Proof.Machine

def exec (i : Instr) (s : State) : Host.Outcome State Fault Refusal :=
  match i with
  | .grp L => Sys2Proof.Machine.execGrp L s
  | .grpf => Sys2Proof.Machine.execGrpf s
  | .rsv0 => Sys2Proof.Machine.execRsv0 s
  | .term => Sys2Proof.Machine.execTerm s
  | .encode => Sys2Proof.Machine.execEncode s
  | .decode => Sys2Proof.Machine.execDecode s
  | .split b D => Sys2Proof.Machine.execSplit b D s
  | .chunk r => Sys2Proof.Machine.execChunk r s
  | .pack c => Sys2Proof.Machine.execPack c s
  | .scan D => Sys2Proof.Machine.execScan D s

end Sys2Proof.Machine
end

