-- ==== Sys2Proof/Machine/Encoder.lean ====
section
/-! DEFINITION. The encoder's step machine (41_encoder.md R106): the delimiter scanner looks at one raw byte, the accumulator
keeps the current run's bytes, the packer writes them. -/

namespace Sys2Proof.Machine

/-- What closing a run writes: the accumulator as one packed group and, under `pad`, an empty group behind a full one (R106). -/
def closeBytes (tail : ChunkTail) (acc : List Byte) : List Byte :=
  packChunk acc ++ (if tail = .pad ∧ acc.length = Config.maxChunk then [1] else [])

/-- `acc <- a` (R106). -/
def State.setAcc (a : List Byte) (s : State) : State := { s with acc := a }

/-- `i <- i + 1` (R24). -/
def State.nextByte (s : State) : State := { s with i := s.i + 1 }

/-- `close_run()` (R106). -/
def closeRun (s : State) : Host.Outcome State Fault Refusal :=
  andThen (appendOut (closeBytes s.chunkTail s.acc) s) fun t => .next (t.setAcc [])

/-- A data byte joins the accumulator; a full accumulator is flushed first, as a full group (R106). -/
def accumulate (x : Byte) (s : State) : Host.Outcome State Fault Refusal :=
  if s.acc.length = Config.maxChunk then
    andThen (appendOut (packChunk s.acc) s) fun t => .next (t.setAcc [x])
  else .next (s.setAcc (s.acc ++ [x]))

/-- The end of the input: the last run is closed and the terminal delimiter written (R106). -/
def finishEncode (s : State) : Host.Outcome State Fault Refusal :=
  andThen (closeRun s) fun t =>
    andThen (appendOut [t.cfgDelim] t) fun u => .next u.setDoneOk

/-- One step of the encoder (R106). -/
def encoderStep (s : State) : Host.Outcome State Fault Refusal :=
  if s.i < s.inLen then
    andThen (readIn s.i s) fun x =>
      andThen (if x = s.cfgDelim then closeRun s else accumulate x s) fun t => .next t.nextByte
  else if s.i = s.inLen then finishEncode s
  else .refused .indexPastEnd

end Sys2Proof.Machine
end

