-- ==== Sys2Proof/Machine/Engine.lean ====
section
/-! DEFINITION. One step of the engine: what a BUSY operation does next (41_encoder.md R106, 42_decoder.md R124, R125, R131), and
the placing of one instruction where the next step fetches. -/

namespace Sys2Proof.Machine

/-- The decoder's fetch: below `last` the length byte at `pos`, at `last` TERM by position, the byte not read again (R125,
R131). -/
def fetch (s : State) : Host.Outcome Instr Fault Refusal :=
  if s.pos < s.last then andThen (readIn s.pos s) fun L => .next (decodeGroupByte L)
  else if s.pos = s.last then .next .term
  else .refused .posPastLast

/-- One step of the engine. When not BUSY nothing happens: "no operation starts by itself" (R34). -/
def engineStep (s : State) : Host.Outcome State Fault Refusal :=
  if s.phase = .busy then
    match s.cmdOp with
    | .encode => encoderStep s
    | .decode => andThen (fetch s) fun i => exec i s
  else .next s

/-- The frame that holds one instruction of bits `w` at index 0, operand bytes 0 above its bits, and a terminal delimiter behind
the longest group (log 15). -/
def frameWith (D : Byte) (nbits w : Nat) : List Byte := tableBytes nbits w ++ [D]

/-- `s` with a DECODE in progress at index 0 of that frame and nothing pending from the host (log 15). -/
def placeWord (s : State) (nbits w : Nat) : State :=
  { s with
    script := [], phase := .busy, cmdOp := .decode, pos := 0, last := longestGroup
    inBuf := Memory.ofBytes (frameWith s.cfgDelim nbits w), inLen := longestGroup + 1 }

end Sys2Proof.Machine
end

