-- ==== Sys2Proof/Machine/HostPort.lean ====
section
/-! DEFINITION. What the host does to the block, one action a step (10_state.md R25; 43_host_stream.md R150-R157;
70_reset_and_hazards.md R222, R223), and which agent moves next. -/

namespace Sys2Proof.Machine

/-- Which rows are not part of a frame: the commands, SCAN, and the units (log 6). -/
def isHostCommand : Instr → Bool
  | .grp _ => false
  | .grpf => false
  | .rsv0 => false
  | .term => false
  | .encode => true
  | .decode => true
  | .split _ _ => true
  | .chunk _ => true
  | .pack _ => true
  | .scan _ => true

/-- A host issues an instruction. -/
def hostIssue (i : Instr) (s : State) : Host.Outcome State Fault Refusal :=
  if isHostCommand i then exec i s else .refused .notAHostCommand

/-- A host writes a register (R25): CFG.DELIM, refused while BUSY, when the write has no meaning and no effect (R26, R157, D3, U6;
log 8); CMD.OP, which starts an operation; IN_LEN, not while BUSY (R157). -/
def writeRegister (r : Reg) (v : Nat) (s : State) : Host.Outcome State Fault Refusal :=
  match r with
  | .cfgDelim =>
    if s.phase = .busy then .refused .registerBusy
    else if v < 256 then .next { s with cfgDelim := BitVec.ofNat 8 v }
    else .refused .valueTooWide
  | .cfgMaxchunk => .refused .readOnlyRegister
  | .cmdOp => if v < 2 then exec (decodeCmd (BitVec.ofNat 1 v)) s else .refused .valueTooWide
  | .statusPhase => .refused .readOnlyRegister
  | .statusCause => .refused .readOnlyRegister
  | .inLen => if s.phase = .busy then .refused .bufferBusy else .next { s with inLen := v }
  | .outLen => .refused .readOnlyRegister

/-- A host reads a register; the value is what it gets back. -/
def hostReadReg (r : Reg) (s : State) : Host.Outcome State Fault Refusal :=
  andThen (readRegister r s) fun v => .next { s with readPort := v }

/-- A host writes one byte of IN, not while BUSY (R53). -/
def hostWriteIn (idx : Nat) (b : Byte) (s : State) : Host.Outcome State Fault Refusal :=
  if s.phase = .busy then .refused .bufferBusy else .next { s with inBuf := s.inBuf.write idx b }

/-- A host hands over a whole input buffer, not while BUSY (R53, R223). -/
def hostLoadIn (bs : List Byte) (s : State) : Host.Outcome State Fault Refusal :=
  if s.phase = .busy then .refused .bufferBusy
  else .next { s with inBuf := Memory.ofBytes bs, inLen := bs.length }

/-- A host provides an OUT, not while BUSY (R223). A finished result stays where it is (D12). DESIGN CHOICE: R223 asks for an OUT
before each start and does not say whether one size serves later operations; here it stays in force until the next one is
provided (log 2). -/
def hostProvideOut (size : Option Nat) (s : State) : Host.Outcome State Fault Refusal :=
  if s.phase = .busy then .refused .bufferBusy else .next { s with outCap := size }

/-- A host reads one byte of OUT (R157). -/
def hostReadOut (idx : Nat) (s : State) : Host.Outcome State Fault Refusal :=
  andThen (readOutByte idx s) fun b => .next { s with readPort := b.toNat }

/-- A host reads by address: the access by name of what the platform puts there (R47). IN is not read by the host (R32). -/
def hostReadAt (addr : Nat) (s : State) : Host.Outcome State Fault Refusal :=
  match s.locate addr with
  | none => .refused .noSuchAddress
  | some (.register r) => hostReadReg r s
  | some (.inByte _) => .refused .bufferAccessNotGiven
  | some (.outByte idx) => hostReadOut idx s

/-- A host writes by address: the access by name of what the platform puts there (R47). OUT is not written by the host (R32). -/
def hostWriteAt (addr v : Nat) (s : State) : Host.Outcome State Fault Refusal :=
  match s.locate addr with
  | none => .refused .noSuchAddress
  | some (.register r) => writeRegister r v s
  | some (.inByte idx) => if v < 256 then hostWriteIn idx (BitVec.ofNat 8 v) s else .refused .valueTooWide
  | some (.outByte _) => .refused .bufferAccessNotGiven

/-- The transport delivers bytes, in stream order (R41, R151). -/
def hostReceive (bs : List Byte) (s : State) : Host.Outcome State Fault Refusal :=
  .next { s with rx := s.rx ++ bs }

/-- The scanned frame, whole and with its delimiter, becomes IN (R153). It is passed once. -/
def hostPassFrame (s : State) : Host.Outcome State Fault Refusal :=
  match s.scanned with
  | .noFrameYet => .refused .noFrameToPass
  | .frame f _ => andThen (hostLoadIn f s) fun t => .next { t with scanned := .noFrameYet }

/-- The finished OUT is written to the stream behind what was written before, index 0 first (R152). DESIGN CHOICE: R152 speaks only
of an ENCODE's frame, written once for each message; here only DONE_OK is asked for, so a host may also write a DECODE's raw
buffer, or the same OUT more than once (log 18). -/
def hostSendFrame (s : State) : Host.Outcome State Fault Refusal :=
  if s.phase = .doneOk then
    match s.outBuf.readRange 0 s.outLen with
    | some bs => .next { s with tx := s.tx ++ bs }
    | none => .refused .outNotReadable
  else .refused .outNotReadable

/-- One action of the host. -/
def hostAct : HostAction → State → Host.Outcome State Fault Refusal
  | .letEngineStep, s => engineStep s
  | .issue i, s => hostIssue i s
  | .writeReg r v, s => writeRegister r v s
  | .readReg r, s => hostReadReg r s
  | .writeIn idx b, s => hostWriteIn idx b s
  | .loadIn bs, s => hostLoadIn bs s
  | .provideOut size, s => hostProvideOut size s
  | .readOut idx, s => hostReadOut idx s
  | .readAt addr, s => hostReadAt addr s
  | .writeAt addr v, s => hostWriteAt addr v s
  | .receive bs, s => hostReceive bs s
  | .passFrame, s => hostPassFrame s
  | .sendFrame, s => hostSendFrame s
  | .resetBlock, s => .next s.resetBlock

/-- The host's remaining actions. -/
def State.setScript (as : List HostAction) (s : State) : State := { s with script := as }

/-- One step of the whole: the host's next pending action, or, when it has none, one step of the engine (log 5). -/
def runNext (s : State) : Host.Outcome State Fault Refusal :=
  match s.script with
  | [] => engineStep s
  | a :: rest => hostAct a (s.setScript rest)

end Sys2Proof.Machine
end

