-- ==== Sys2Proof/Machine/Step.lean ====
section
/-! DEFINITION. The step function, and one instruction placed where it fetches. -/

namespace Sys2Proof.Machine

/-- One step: the host's next pending action, else one step of the engine. -/
def step (s : State) : Host.Outcome State Fault Refusal := runNext s

/-- `s` with an instruction of `nbits` bits `w` stored where the next step fetches (log 15). -/
def State.withFetchWord (s : State) (nbits w : Nat) : State := placeWord s nbits w

end Sys2Proof.Machine
end

