-- ==== Sys2Proof/Machine/Instances.lean ====
section
/-! DEFINITION. Several instances of the block (60_exceptions.md R206, 20_memory.md R50): each has its own registers and buffers
and its own host, and one of them takes a step at a time (log 14). -/

namespace Sys2Proof.Machine

/-- One step of instance `k`; every other instance is left as it is. -/
def stepOne (k : Nat) (ms : List State) : Host.Outcome (List State) Fault Refusal :=
  match ms[k]? with
  | none => .next ms
  | some s => andThen (step s) fun t => .next (ms.set k t)

end Sys2Proof.Machine
end

