-- ==== Sys2Proof/Machine/Transaction.lean ====
section
/-! DEFINITION. The transaction level, which is normative (00_scope.md R12): ENCODE and DECODE as functions of the delimiter and
the input buffer (41_encoder.md R104, 42_decoder.md R121). -/

namespace Sys2Proof.Machine

/-- All chunks of a raw buffer, run after run (R104). -/
def allChunks (tail : ChunkTail) (D : Byte) (b : List Byte) : List (List Byte) :=
  (splitRuns D b).flatMap (chunkRun tail)

/-- `Encode(D, b)` (R104): every chunk of every run packed, then the terminal delimiter. -/
def encodeFrame (tail : ChunkTail) (D : Byte) (b : List Byte) : List Byte :=
  (allChunks tail D b).flatMap packChunk ++ [D]

/-- The result of DECODE: `Ok(raw)` or `Err(c)` (R120). -/
inductive DecodeResult where
  | ok (raw : List Byte)
  | err (c : CorruptFrame)
deriving DecidableEq, Repr

/-- The loop of `Decode(D, f)` from position `pos` with `out` decoded so far (R121). The first argument bounds the number of
groups: each advances `pos` by at least 1, so `last` of them are enough (R132). -/
def decodeLoop (D : Byte) (f : List Byte) (last : Nat) : Nat → Nat → List Byte → DecodeResult
  | 0, _, out => .ok out
  | n + 1, pos, out =>
    if pos < last then
      let L := (f.getD pos 0).toNat
      if L = 0 then .err .invalidChunkLength
      else if last < pos + L then .err .invalidChunkLength
      else
        let data := (f.drop (pos + 1)).take (L - 1)
        let sep := if pos + L < last ∧ L < 255 then [D] else []
        decodeLoop D f last n (pos + L) (out ++ data ++ sep)
    else .ok out

/-- `Decode(D, f)` (R121). -/
def decodeFrame (D : Byte) (f : List Byte) : DecodeResult :=
  match f.getLast? with
  | none => .err .missingTerminalDelimiter
  | some t =>
    if t = D then decodeLoop D f (f.length - 1) f.length 0 [] else .err .missingTerminalDelimiter

/-- The buffer a frame of `b` decodes to under `CHUNK_TAIL = plain` (44_laws.md R168): `b` without every delimiter that directly
follows a run whose length is a positive multiple of 254. -/
def joinLossy (D : Byte) : List (List Byte) → List Byte
  | [] => []
  | [r] => r
  | r :: r' :: rs =>
    r ++ (if 0 < r.length ∧ r.length % Config.maxChunk = 0 then [] else [D]) ++ joinLossy D (r' :: rs)

/-- The runs with the delimiter put back between each adjacent pair (R81). -/
def joinRuns (D : Byte) : List (List Byte) → List Byte
  | [] => []
  | [r] => r
  | r :: r' :: rs => r ++ [D] ++ joinRuns D (r' :: rs)

end Sys2Proof.Machine
end

