-- ==== Sys2Proof/Safety.lean ====
section
/-! DEFINITION. The terms in which statements are made: what a state of a run looks like (`Inv`), when the engine can go on, and a
run of steps. -/

namespace Sys2Proof.Machine

/-- The run of `k` steps of the machine. -/
abbrev runSteps (k : Nat) (s : State) : Host.Outcome State Fault Refusal := Host.Core.run Sys2Proof.core k s

/-- CAUSE is written with PHASE: a cause code exactly in DONE_ERR (10_state.md R28). -/
def State.flagsAgree (s : State) : Prop := s.cause.isSome = true ↔ s.phase = .doneErr

/-- OUT_LEN is the length of OUT in DONE_OK and 0 otherwise (R34, R196, R200). -/
def State.lengthAgrees (s : State) : Prop := s.outLen = if s.phase = .doneOk then s.outIdx else 0

/-- OUT holds exactly the indices below `outIdx`: it is written append-only from 0 (R44). -/
def State.outDense (s : State) : Prop := s.outBuf.map Prod.fst = List.range s.outIdx

/-- The decoder's position stays at or below the last index, which is `|IN| - 1` (R23, R29, R124). -/
def State.decoderInRange (s : State) : Prop := s.decoding = true → s.pos ≤ s.last ∧ s.last + 1 = s.inLen

/-- The encoder's index stays at or below `|IN|`, and the accumulator holds at most 254 bytes, none the delimiter (R24, R30,
R82). -/
def State.encoderInRange (s : State) : Prop :=
  s.encoding = true → s.i ≤ s.inLen ∧ s.acc.length ≤ Config.maxChunk ∧ ∀ x ∈ s.acc, x ≠ s.cfgDelim

/-- An operation in progress has stayed inside the OUT the host provided (R46). -/
def State.outFits (s : State) : Prop := s.phase = .busy → s.hasRoom 0 = true

/-- What holds of every state of a run. -/
structure State.Inv (s : State) : Prop where
  inWf : s.inBuf.wf = true
  outWf : s.outBuf.wf = true
  flags : s.flagsAgree
  length : s.lengthAgrees
  dense : s.outDense
  decoder : s.decoderInRange
  encoder : s.encoderInRange
  fits : s.outFits

/-- A run of `k` steps that neither faults nor is refused. -/
def SafeRun (k : Nat) (s : State) : Prop := ∃ t, runSteps k s = .next t

/-- How a decoded state shows a DECODE's result (R120, R121): `Ok(raw)` as DONE_OK with the bytes in OUT, `Err(c)` as DONE_ERR
with the cause and nothing in OUT. -/
def showsResult (r : DecodeResult) (t : State) : Prop :=
  match r with
  | .ok raw => t.phase = .doneOk ∧ t.cause = none ∧ t.outLen = raw.length ∧ t.output = some raw
  | .err c => t.phase = .doneErr ∧ t.cause = some c ∧ t.outLen = 0

/-- `n` bytes fit the OUT the host provided for an operation (R46). -/
def State.fitsOut (s : State) (n : Nat) : Prop := ∀ c, s.outCap = some c → n ≤ c

/-- The input of the operation, its delimiter and the parameters are the same; every byte of IN reads as before (R43, R108). -/
def sameInput (s t : State) : Prop :=
  t.chunkTail = s.chunkTail ∧ t.maxLen = s.maxLen ∧ t.addrMap = s.addrMap ∧ t.outCap = s.outCap ∧
    t.cfgDelim = s.cfgDelim ∧ t.inLen = s.inLen ∧ ∀ a, t.inBuf.read a = s.inBuf.read a

/-- The decoder's working registers are the same. -/
def sameDecoder (s t : State) : Prop := t.pos = s.pos ∧ t.last = s.last

/-- The encoder's working registers are the same. -/
def sameEncoder (s t : State) : Prop := t.i = s.i ∧ t.acc = s.acc

/-- The host's own data and its pending actions are the same. -/
def sameHost (s t : State) : Prop :=
  t.script = s.script ∧ t.readPort = s.readPort ∧ t.rx = s.rx ∧ t.tx = s.tx ∧ t.scanned = s.scanned

/-- The command and status registers are the same. -/
def sameStatus (s t : State) : Prop :=
  t.cmdOp = s.cmdOp ∧ t.phase = s.phase ∧ t.cause = s.cause ∧ t.outLen = s.outLen

/-- OUT is the same: its length so far and every byte. -/
def sameOut (s t : State) : Prop := t.outIdx = s.outIdx ∧ ∀ a, t.outBuf.read a = s.outBuf.read a

/-- Two instances to which a host gives the same operands, with nothing pending from either host (R20). Their addresses may
differ. -/
def sameOperands (s t : State) : Prop :=
  s.script = [] ∧ t.script = [] ∧ t.chunkTail = s.chunkTail ∧ t.maxLen = s.maxLen ∧ t.outCap = s.outCap ∧
    t.cfgDelim = s.cfgDelim ∧ t.inLen = s.inLen ∧ t.inBuf = s.inBuf

/-- What a host learns of an operation: PHASE, CAUSE, OUT_LEN and the bytes of OUT (R157). -/
def sameResult (s t : State) : Prop :=
  t.phase = s.phase ∧ t.cause = s.cause ∧ t.outLen = s.outLen ∧ t.outBuf = s.outBuf

/-- The indices of `b` that hold `D`, in ascending order: `p_1 < ... < p_z` of R81. -/
def delimiterPositions (D : Byte) (b : List Byte) : List Nat :=
  (List.range b.length).filter (fun p => b[p]? == some D)

/-- `p_j + 1`, where run `j` begins, with `p_0 = -1` (R81). -/
def runBegin (D : Byte) (b : List Byte) (j : Nat) : Nat :=
  if j = 0 then 0 else (delimiterPositions D b).getD (j - 1) b.length + 1

/-- `p_(j+1)`, where run `j` ends, with `p_(z+1) = |b|` (R81). -/
def runEnd (D : Byte) (b : List Byte) (j : Nat) : Nat := (delimiterPositions D b).getD j b.length

/-- No run of `b` has a length that is a positive multiple of 254 (44_laws.md R170). -/
def noFullRun (D : Byte) (b : List Byte) : Prop :=
  ∀ r ∈ splitRuns D b, ¬ (0 < r.length ∧ r.length % Config.maxChunk = 0)

end Sys2Proof.Machine
end

