-- ==== Sys2Proof/Certificates/Slice0/Obligations.lean ====
section
/-! DEFINITION. The statements made about the model. Each docstring says which rule of spec/ it formalises; where it rests on a
rule the spec marks as its own decision or inference, or on an entry of the assumption log, the docstring says so. -/

open Sys2Proof Sys2Proof.Machine

/-! ### Decoding and encoding -/

/-- A few frame bytes written out from R65 and R67: the bytes at `pos` of P1, P3, P4 of spec/95_test_vectors.md, the two ends of
GRP's range, and a byte at the last index. -/
def Obligations.WrittenOutBytesDecode : Prop :=
  decodeBytes [0x03, 0x0B, 0x16, 0x02, 0x21, 0x00] = .ok (.grp 3) ∧
  decodeBytes [0x02, 0x21, 0x00] = .ok (.grp 2) ∧
  decodeBytes [0xFF, 0x01, 0x00] = .ok .grpf ∧
  decodeBytes [0x00, 0x05, 0x00] = .ok .rsv0 ∧
  decodeBytes [0x01, 0x00] = .ok (.grp 1) ∧
  decodeBytes [0xFE, 0x00] = .ok (.grp 254) ∧
  decodeBytes [0x00] = .ok .term ∧
  decodeBytes [0x03] = .ok .term ∧
  decodeBytes [] = .error .endOfFrame ∧
  decodeCmd 0 = .encode ∧ decodeCmd 1 = .decode

/-- TERM is recognised by position (30_encoding.md R62): the byte at the last index is TERM whatever its value, and no byte before
it is. -/
def Obligations.TermIsRecognisedByPosition : Prop :=
  ∀ v : Byte, decodeBytes [v] = .ok .term ∧
    ∀ (w : Byte) (bs : List Byte), decodeBytes (v :: w :: bs) ≠ .ok .term

/-- Decode of encode, for every well-formed instruction that has an encoding, with every operand: a length byte before the
frame's end, TERM at its end, and the two values of CMD.OP. -/
def Obligations.DecodeOfEncode : Prop :=
  (∀ (D : Byte) (i : Instr) (w rest : List Byte), i.wf = true → encode D i = some w → (rest = [] ↔ i = .term) →
    decodeBytes (w ++ rest) = .ok i) ∧
  (∀ (i : Instr) (op : BitVec 1), encodeCmd i = some op → decodeCmd op = i) ∧
  (∀ op : BitVec 1, encodeCmd (decodeCmd op) = some op)

/-- Frames and their listings agree (R60, R61, R74): a frame assembled from any packed groups, each with as many data bytes as
its length byte says, reads back as those groups and the terminal delimiter, with no bit of a length or of the data lost. -/
def Obligations.DisassembleOfAssemble : Prop :=
  ∀ (D : Byte) (ls : List Line) (n : Nat), (∀ l ∈ ls, lineWf l = true) → ls.length ≤ n →
    disassemble n (assemble D ls) = some (ls ++ [⟨.term, []⟩])

/-- The other direction: bytes that have a listing are the frame assembled from it, so every legal frame has one meaning. -/
def Obligations.AssembleOfDisassemble : Prop :=
  ∀ (n : Nat) (f : List Byte) (ls : List Line), disassemble n f = some ls →
    ∃ (gs : List Line) (D : Byte), ls = gs ++ [⟨.term, []⟩] ∧ (∀ l ∈ gs, lineWf l = true) ∧ f = assemble D gs

/-! ### The step -/

/-- A step of a DECODE in progress, with nothing pending from the host, runs the instruction that the bytes at `pos` decode to;
the bytes are those from `pos` to `last`, and only the length byte has to be readable (R124, R125, R131). Nothing is added
around exec. -/
def Obligations.StepRunsTheDecodedInstruction : Prop :=
  ∀ (s : State) (b : Byte) (rest : List Byte) (i : Instr),
    s.script = [] → s.decoding = true → s.pos ≤ s.last → rest.length = s.last - s.pos →
    (s.pos < s.last → s.last < s.inLen ∧ s.inBuf.read s.pos = some b) →
    decodeBytes (b :: rest) = .ok i → step s = exec i s

/-- A step with a command, SCAN or a unit evaluation pending runs exactly it, with the host's list moved on (log 5, log 6); a
write of CMD.OP, by name or at an address where the platform puts it, starts the operation it names (R25, R47; addresses:
log 22). A step in which the host lets the engine step is the step the machine would take with nothing pending, and then the
rest of the list is pending (log 5). -/
def Obligations.StepRunsThePendingCommand : Prop :=
  (∀ (s : State) (i : Instr) (rest : List HostAction), s.script = .issue i :: rest → isHostCommand i = true →
    step s = exec i (s.setScript rest)) ∧
  (∀ (s : State) (op : BitVec 1) (rest : List HostAction), s.script = .writeReg .cmdOp op.toNat :: rest →
    step s = exec (decodeCmd op) (s.setScript rest)) ∧
  (∀ (s : State) (op : BitVec 1) (addr : Nat) (rest : List HostAction), s.script = .writeAt addr op.toNat :: rest →
    s.locate addr = some (.register .cmdOp) → step s = exec (decodeCmd op) (s.setScript rest)) ∧
  (∀ (s : State) (rest : List HostAction), s.script = .letEngineStep :: rest →
    step s = engineStep (s.setScript rest) ∧
    step s = andThen (step (s.setScript [])) fun t => .next (t.setScript rest))

/-- The byte `w` placed where the next step fetches is run by that step as the length byte it is (log 15). -/
def Obligations.PlacedWordIsRun : Prop :=
  ∀ (s : State) (w : Byte), step (s.withFetchWord 8 w.toNat) = exec (decodeGroupByte w) (s.withFetchWord 8 w.toNat)

/-- "no operation starts by itself" (10_state.md, reset values): with nothing pending and no operation BUSY, a step changes
nothing. -/
def Obligations.NoOperationStartsByItself : Prop :=
  ∀ s : State, s.script = [] → s.phase ≠ .busy → step s = .next s

/-! ### The packed groups -/

/-- GRP: the bound check raises `CorruptFrame(2)` (42_decoder.md R127, R128), with the exception's effect on the registers (R196)
and with OUT discarded, which is the model's choice (log 12); else the `L - 1` data bytes are appended to OUT, `pos` becomes
`pos + L`, and one DELIM is appended if the new position is before the final byte (R128). -/
def Obligations.GrpCopiesAndReinserts : Prop :=
  ∀ (s : State) (L : Byte), 1 ≤ L.toNat → L.toNat ≤ 254 → s.atGroup = true →
    (s.last < s.pos + L.toNat →
      exec (.grp L) s = .next { s with
        phase := .doneErr, cause := some .invalidChunkLength, outLen := 0, outBuf := [], outIdx := 0 }) ∧
    (∀ d sep : List Byte, s.pos + L.toNat ≤ s.last → s.last < s.inLen →
      s.inBuf.readRange (s.pos + 1) (L.toNat - 1) = some d →
      sep = (if s.pos + L.toNat < s.last then [s.cfgDelim] else []) → s.hasRoom (d ++ sep).length = true →
      exec (.grp L) s = .next { s with
        outBuf := s.outBuf.writeBytes s.outIdx (d ++ sep), outIdx := s.outIdx + (d ++ sep).length
        pos := s.pos + L.toNat })

/-- GRPF: the bound check raises `CorruptFrame(2)` (42_decoder.md R127, R130), with the exception's effect on the registers (R196)
and with OUT discarded, which is the model's choice (log 12); else 254 data bytes are appended to OUT and `pos` becomes
`pos + 255`; no delimiter is appended, wherever the group stands (R130). -/
def Obligations.GrpfCopiesAndReinsertsNothing : Prop :=
  ∀ s : State, s.atGroup = true →
    (s.last < s.pos + 255 →
      exec .grpf s = .next { s with
        phase := .doneErr, cause := some .invalidChunkLength, outLen := 0, outBuf := [], outIdx := 0 }) ∧
    (∀ d : List Byte, s.pos + 255 ≤ s.last → s.last < s.inLen → s.inBuf.readRange (s.pos + 1) 254 = some d →
      s.hasRoom 254 = true →
      exec .grpf s = .next { s with
        outBuf := s.outBuf.writeBytes s.outIdx d, outIdx := s.outIdx + 254, pos := s.pos + 255 })

/-- RSV0 raises `CorruptFrame(2)` at every length-byte place: the spec's own decision D8 (42_decoder.md R129), with the exception's
effect on the registers (60_exceptions.md R196) and with OUT discarded, which is the model's choice (log 12). -/
def Obligations.Rsv0Raises : Prop :=
  ∀ s : State, s.atGroup = true →
    exec .rsv0 s = .next { s with
      phase := .doneErr, cause := some .invalidChunkLength, outLen := 0, outBuf := [], outIdx := 0 }

/-- R131, TERM: the operation ends with what is in OUT: DONE_OK, CAUSE 0, OUT_LEN the number of bytes; nothing is read or
copied, whether the byte at `last` is readable or not. A one-byte frame is at TERM at once, with nothing in OUT, and its result
is the empty buffer. -/
def Obligations.TermEndsTheOperation : Prop :=
  (∀ s : State, s.atTerm = true →
    exec .term s = .next { s with phase := .doneOk, cause := none, outLen := s.outIdx }) ∧
  (∀ s t : State, s.phase ≠ .busy → s.inLen = 1 → exec .decode s = .next t → t.phase = .busy →
    t.atTerm = true ∧ t.outIdx = 0) ∧
  (∀ D : Byte, decodeFrame D [D] = .ok [])

/-- What appending means to a reader of OUT (R44, R126): after a GRP or GRPF that raises nothing, OUT holds what it held and
behind it the group's data bytes and the reinserted delimiter. -/
def Obligations.GroupAppendsToOut : Prop :=
  ∀ (s t : State) (L : Byte) (o : List Byte), (L ≠ 255 → exec (.grp L) s = .next t) → (L = 255 → exec .grpf s = .next t) →
    t.phase ≠ .doneErr → s.output = some o →
    ∃ d : List Byte, s.inBuf.readRange (s.pos + 1) (L.toNat - 1) = some d ∧
      t.output = some (o ++ d ++ (if L ≠ 255 ∧ s.pos + L.toNat < s.last then [s.cfgDelim] else [])) ∧
      t.pos = s.pos + L.toNat

/-- The frame of GRP, GRPF, RSV0 and TERM: input, parameters, CMD.OP, the encoder's registers, the unit result and the host's data
are unchanged and so is `last`; TERM leaves `pos`, and so does every form that raises (60_exceptions.md R196); the bytes of OUT
change only from `outIdx` on, in as many bytes as the group stores (R44), or are discarded where an exception is taken, which is
the model's choice (log 12). -/
def Obligations.FrameInstructionsLeaveTheRest : Prop :=
  ∀ (s t : State) (i : Instr), ((∃ L, i = .grp L) ∨ i = .grpf ∨ i = .rsv0 ∨ i = .term) → exec i s = .next t →
    sameInput s t ∧ sameEncoder s t ∧ sameHost s t ∧ t.cmdOp = s.cmdOp ∧ t.unitOut = s.unitOut ∧ t.last = s.last ∧
    (t.phase = .doneErr → t.pos = s.pos ∧ ∀ a, t.outBuf.read a = none) ∧
    (i = .term → t.pos = s.pos ∧ sameOut s t) ∧
    (∀ L, i = .grp L → t.phase ≠ .doneErr → sameStatus s t ∧
      ∀ a, a < s.outIdx ∨ s.outIdx + (dataCount L + (reinserted L s).length) ≤ a →
        t.outBuf.read a = s.outBuf.read a) ∧
    (i = .grpf → t.phase ≠ .doneErr → sameStatus s t ∧
      ∀ a, a < s.outIdx ∨ s.outIdx + 254 ≤ a → t.outBuf.read a = s.outBuf.read a)

/-- The position counter under the instructions (10_state.md R23, R29): a packed group sets `pos` to `pos + L` and to nothing
else, and leaves it at or below `last`; a DECODE that starts sets it to 0, one that raises leaves it (60_exceptions.md R196), and
so does one met while BUSY, which has no effect (10_state.md R28, the spec's decision D22, log 7); no other instruction changes
it. (A reset is no instruction: it gives `pos` the model's value, log 3, log 19.) -/
def Obligations.PositionAdvancesByTheLength : Prop :=
  ∀ (s t : State) (i : Instr), exec i s = .next t →
    (∀ L, i = .grp L → t.phase ≠ .doneErr → t.pos = s.pos + L.toNat ∧ t.pos ≤ t.last) ∧
    (i = .grpf → t.phase ≠ .doneErr → t.pos = s.pos + 255 ∧ t.pos ≤ t.last) ∧
    (i = .decode →
      (s.phase ≠ .busy → t.phase = .busy → t.pos = 0) ∧ (s.phase = .busy ∨ t.phase ≠ .busy → t.pos = s.pos)) ∧
    ((∀ L, i ≠ .grp L) → i ≠ .grpf → i ≠ .decode → t.pos = s.pos)

/-- A GRP, GRPF or RSV0 outside a DECODE's length-byte place, a TERM elsewhere than at `last`, and a term that WellFormed
refuses are no instruction there: they stop by name (log 20). -/
def Obligations.MisplacedInstructionsStop : Prop :=
  (∀ s : State, s.atGroup = false →
    exec .grpf s = .refused .noGroupHere ∧ exec .rsv0 s = .refused .noGroupHere ∧
    ∀ L : Byte, (Instr.grp L).wf = true → exec (.grp L) s = .refused .noGroupHere) ∧
  (∀ s : State, s.atTerm = false → exec .term s = .refused .notAtTerm) ∧
  (∀ (s : State) (L : Byte), (Instr.grp L).wf = false → exec (.grp L) s = .refused .illFormed) ∧
  (∀ (s : State) (c : List Byte), 254 < c.length → exec (.pack c) s = .refused .illFormed)

/-! ### Exceptions -/

/-- Taking the exception (60_exceptions.md, trap entry; the register form is the spec's decisions D10 and D12): PHASE DONE_ERR,
CAUSE the code, OUT_LEN 0, no byte of OUT left to deliver; everything else is as it was: no handler, no saved position. -/
def Obligations.RaiseEndsTheOperation : Prop :=
  ∀ (c : CorruptFrame) (s : State), ∃ t, raiseCorruptFrame c s = .next t ∧
    t.phase = .doneErr ∧ t.cause = some c ∧ t.outLen = 0 ∧ (∀ a, t.outBuf.read a = none) ∧
    (causeCode t.cause).toNat = (match c with | .missingTerminalDelimiter => 1 | .invalidChunkLength => 2) ∧
    sameInput s t ∧ sameDecoder s t ∧ sameEncoder s t ∧ sameHost s t ∧ t.cmdOp = s.cmdOp ∧ t.unitOut = s.unitOut

/-- Which operation can raise what (60_exceptions.md R194): from any phase but DONE_ERR, DONE_ERR comes from the start of a DECODE
with cause 1, from a GRP or GRPF with `pos + L > last` or an RSV0 with cause 2, and from no other instruction and no step of the
encoder; and each of these does raise, the start of a DECODE from DONE_ERR too: the TERM check and the empty frame, a group past
the frame, RSV0 always. That the empty frame raises is the spec's decision D7 (log 11), that RSV0 does is its decision D8
(log 10). -/
def Obligations.OnlyDecodeRaises : Prop :=
  (∀ (s t : State) (i : Instr), exec i s = .next t → s.phase ≠ .doneErr → t.phase = .doneErr →
    (i = .decode ∧ t.cause = some .missingTerminalDelimiter) ∨
    ((∃ L, i = .grp L ∧ s.last < s.pos + L.toNat) ∧ t.cause = some .invalidChunkLength) ∨
    (i = .grpf ∧ s.last < s.pos + 255 ∧ t.cause = some .invalidChunkLength) ∨
    (i = .rsv0 ∧ t.cause = some .invalidChunkLength)) ∧
  (∀ s t : State, encoderStep s = .next t → s.phase ≠ .doneErr → t.phase ≠ .doneErr) ∧
  (∀ s : State, s.atGroup = true →
    (∃ t, exec .rsv0 s = .next t ∧ t.phase = .doneErr ∧ t.cause = some .invalidChunkLength) ∧
    (∀ L : Byte, 1 ≤ L.toNat → L.toNat ≤ 254 → s.last < s.pos + L.toNat →
      ∃ t, exec (.grp L) s = .next t ∧ t.phase = .doneErr ∧ t.cause = some .invalidChunkLength) ∧
    (s.last < s.pos + 255 → ∃ t, exec .grpf s = .next t ∧ t.phase = .doneErr ∧ t.cause = some .invalidChunkLength)) ∧
  (∀ s : State, s.phase ≠ .busy → s.tooLong = false →
    (s.inLen = 0 ∨ ∃ v, v ≠ s.cfgDelim ∧ s.inBuf.read (s.inLen - 1) = some v) →
    ∃ t, exec .decode s = .next t ∧ t.phase = .doneErr ∧ t.cause = some .missingTerminalDelimiter)

/-- A failed DECODE stays failed, with its cause, until the host starts the next operation, by a command or by a write of CMD.OP
under its name or its address, or resets (the spec's decision D12, 60_exceptions.md R198). -/
def Obligations.ErrorIsFinal : Prop :=
  ∀ s t : State, s.phase = .doneErr → step s = .next t →
    (∀ rest i, s.script = .issue i :: rest → i ≠ .encode ∧ i ≠ .decode) →
    (∀ rest v, s.script ≠ .writeReg .cmdOp v :: rest) →
    (∀ rest addr v, s.script = .writeAt addr v :: rest → s.locate addr ≠ some (.register .cmdOp)) →
    (∀ rest, s.script ≠ .resetBlock :: rest) →
    t.phase = .doneErr ∧ t.cause = s.cause

/-! ### The commands -/

/-- ENCODE starts in IDLE, DONE_OK and DONE_ERR (the spec's step machine, 41_encoder.md R106; the register form D12): the previous
result is cleared, OUT is empty, `i` is 0 and `acc` empty; the decoder's registers are not touched. -/
def Obligations.EncodeStarts : Prop :=
  ∀ s : State, s.phase ≠ .busy → s.tooLong = false →
    exec .encode s = .next { s with
      cmdOp := .encode, phase := .busy, cause := none, outLen := 0, outBuf := [], outIdx := 0, i := 0, acc := [] }

/-- DECODE starts in IDLE, DONE_OK and DONE_ERR, on a frame whose last byte is the delimiter (the spec's step machine,
42_decoder.md R124): the previous result is cleared, OUT is empty, `pos` is 0 and `last` is `|IN| - 1`. -/
def Obligations.DecodeStarts : Prop :=
  ∀ s : State, s.phase ≠ .busy → s.tooLong = false → 0 < s.inLen →
    s.inBuf.read (s.inLen - 1) = some s.cfgDelim →
    exec .decode s = .next { s with
      cmdOp := .decode, phase := .busy, cause := none, outLen := 0, outBuf := [], outIdx := 0
      pos := 0, last := s.inLen - 1 }

/-- The TERM check (42_decoder.md R123): a frame whose last byte differs from the delimiter raises `CorruptFrame(1)` at the start,
before any length byte is read: whatever the other bytes are and whether or not they are readable; the registers are as R196 says,
and OUT is discarded by the model's choice (log 12). A frame whose last byte is the delimiter starts the decoder: BUSY, `pos` 0,
`last` (R124, the spec's decision D11). -/
def Obligations.DecodeChecksTheTerminalDelimiter : Prop :=
  ∀ (s : State) (v : Byte), s.phase ≠ .busy → s.tooLong = false → 0 < s.inLen →
    s.inBuf.read (s.inLen - 1) = some v →
    (v ≠ s.cfgDelim →
      exec .decode s = .next { s with
        cmdOp := .decode, phase := .doneErr, cause := some .missingTerminalDelimiter
        outLen := 0, outBuf := [], outIdx := 0 }) ∧
    (v = s.cfgDelim → ∃ t, exec .decode s = .next t ∧ t.phase = .busy ∧ t.pos = 0 ∧ t.last = s.inLen - 1)

/-- DECODE of the empty frame raises `CorruptFrame(1)`: the spec's own decision D7 (42_decoder.md R122, log 11). The registers are
as a start (10_state.md R25, R28; CMD.OP: log 26) and the exception (60_exceptions.md R196) leave them; OUT is discarded by the
model's choice (log 12). -/
def Obligations.DecodeOfNothingRaises : Prop :=
  ∀ s : State, s.phase ≠ .busy → s.tooLong = false → s.inLen = 0 →
    exec .decode s = .next { s with
      cmdOp := .decode, phase := .doneErr, cause := some .missingTerminalDelimiter
      outLen := 0, outBuf := [], outIdx := 0 }

/-- A start command while BUSY has no effect and does not disturb the running operation (the spec's decision D22; read as a step
without effect, log 7); a start on an input longer than a finite MAXLEN is refused (D6). -/
def Obligations.StartsTurnedAway : Prop :=
  (∀ s : State, s.phase = .busy → exec .encode s = .next s ∧ exec .decode s = .next s) ∧
  (∀ (s : State) (m : Nat), s.phase ≠ .busy → s.maxLen = some m → m < s.inLen →
    exec .encode s = .refused .inputTooLong ∧ exec .decode s = .refused .inputTooLong) ∧
  (∀ (s : State) (m : Nat), s.phase ≠ .busy → s.maxLen = some m → s.inLen ≤ m → ∃ t, exec .encode s = .next t ∧ t.phase = .busy)

/-- The frame of the two commands: the input, the parameters, the unit result and the host's data are unchanged, ENCODE leaves
the decoder's registers and DECODE the encoder's; a start while BUSY leaves everything (10_state.md R28, the spec's decision D22,
log 7); any other start leaves no byte of OUT from the operation before (OUT empty at a start: 20_memory.md R44, 42_decoder.md
R124; where the start raises CorruptFrame, the model's choice, log 12). -/
def Obligations.CommandsLeaveTheRest : Prop :=
  ∀ (s t : State) (i : Instr), (i = .encode ∨ i = .decode) → exec i s = .next t →
    sameInput s t ∧ sameHost s t ∧ t.unitOut = s.unitOut ∧
    (i = .encode → sameDecoder s t) ∧ (i = .decode → sameEncoder s t) ∧
    (s.phase = .busy → sameStatus s t ∧ sameOut s t ∧ sameDecoder s t ∧ sameEncoder s t) ∧
    (s.phase ≠ .busy → t.outIdx = 0 ∧ ∀ a, t.outBuf.read a = none)

/-! ### The units and the scan -/

/-- SPLIT (40_segmentation.md R81, R82): there are exactly `z + 1` runs, run `j` is `b[p_j + 1 .. p_(j+1))`, the runs with the
delimiter put back between each adjacent pair are `b`, no run holds the delimiter, and these two properties determine the list;
nothing but the unit's result changes. That the unit may be evaluated in every state, and that its result goes into unitOut, is
the model's choice (log 6). -/
def Obligations.SplitGivesTheRuns : Prop :=
  ∀ (s : State) (b : List Byte) (D : Byte), ∃ rs : List (List Byte),
    exec (.split b D) s = .next { s with unitOut := .runs rs } ∧
    rs.length = b.count D + 1 ∧
    (∀ j (h : j < rs.length), rs[j] = (b.take (runEnd D b j)).drop (runBegin D b j)) ∧
    joinRuns D rs = b ∧ (∀ r ∈ rs, D ∉ r) ∧
    (∀ rs' : List (List Byte), rs' ≠ [] → joinRuns D rs' = b → (∀ r ∈ rs', D ∉ r) → rs' = rs)

/-- CHUNK under both settings of CHUNK_TAIL (the spec's decision D5; 40_segmentation.md R87, R88, R90): the number of chunks,
each chunk as a slice of the run, their concatenation, their sizes, all but the last exactly 254 bytes; nothing but the unit's
result changes. That the unit may be evaluated in every state, takes CHUNK_TAIL from the block, and puts its result into unitOut,
is the model's choice (log 6). -/
def Obligations.ChunkGivesTheChunks : Prop :=
  ∀ (s : State) (r : List Byte), ∃ cs : List (List Byte),
    exec (.chunk r) s = .next { s with unitOut := .chunks cs } ∧
    (s.chunkTail = .plain → cs.length = max 1 ((r.length + 253) / 254)) ∧
    (s.chunkTail = .pad → cs.length = r.length / 254 + 1) ∧
    (∀ t (h : t < cs.length), cs[t] = (r.take (min (254 * (t + 1)) r.length)).drop (254 * t)) ∧
    cs.flatten = r ∧ (∀ c ∈ cs, c.length ≤ 254) ∧ (∀ c ∈ cs.dropLast, c.length = 254)

/-- The two settings of CHUNK_TAIL give the same chunks unless the run's length is a positive multiple of 254, where `pad` has one
more chunk, the empty one, at the end (40_segmentation.md R88, decision D5). -/
def Obligations.ChunkTailsDiffer : Prop :=
  ∀ r : List Byte, chunkRun .pad r = chunkRun .plain r ++ (if 0 < r.length ∧ r.length % 254 = 0 then [[]] else [])

/-- PACK (41_encoder.md R101, 44_laws.md R161): for every chunk of at most 254 bytes the result is the length byte `|c| + 1` and
then the chunk's bytes; the addition does not overflow, the length byte is in 1..255; nothing but the unit's result changes. That
the unit may be evaluated in every state, and that its result goes into unitOut, is the model's choice (log 6). -/
def Obligations.PackGivesTheGroup : Prop :=
  ∀ (s : State) (c : List Byte), c.length ≤ 254 → ∃ L : Byte,
    exec (.pack c) s = .next { s with unitOut := .group (L :: c) } ∧
    L.toNat = c.length + 1 ∧ 1 ≤ L.toNat ∧ L.toNat ≤ 255 ∧ (L :: c).length = c.length + 1

/-- The host's side of the stream. SCAN (43_host_stream.md R151): with no delimiter among the received bytes there is no frame yet
and they stay; else the frame is cut behind the first delimiter and the rest is kept; no register, flag or buffer of the block
changes. Receiving puts bytes behind those not yet consumed (R41, R151). Passing makes the scanned frame, whole, the input, once;
with no frame, nothing is passed to DECODE (R153). Sending writes the OUT of a finished operation behind what was sent before,
byte 0 first, with nothing between (R152, the spec's decision D18); outside DONE_OK it is refused (R45). That these are single
actions of the host on fields of the model's, that a frame is passed once, and that sending looks at DONE_OK alone, is the
model's form (log 18, log 25). -/
def Obligations.ScanCutsAtTheFirstDelimiter : Prop :=
  (∀ (s : State) (D : Byte),
    (D ∉ s.rx → exec (.scan D) s = .next { s with scanned := .noFrameYet }) ∧
    (∀ f rest : List Byte, s.rx = f ++ [D] ++ rest → D ∉ f →
      exec (.scan D) s = .next { s with scanned := .frame (f ++ [D]) rest, rx := rest })) ∧
  (∀ (s : State) (bs : List Byte) (rest : List HostAction), s.script = .receive bs :: rest →
    step s = .next { s with script := rest, rx := s.rx ++ bs }) ∧
  (∀ (s : State) (rest : List HostAction), s.script = .passFrame :: rest →
    (s.scanned = .noFrameYet → step s = .refused .noFrameToPass) ∧
    (∀ f behind : List Byte, s.scanned = .frame f behind → s.phase ≠ .busy →
      ∃ t, step s = .next t ∧ t.input = some f ∧
        t = { s with script := rest, inBuf := t.inBuf, inLen := f.length, scanned := .noFrameYet })) ∧
  (∀ (s : State) (rest : List HostAction), s.script = .sendFrame :: rest →
    (∀ o : List Byte, s.phase = .doneOk → s.outBuf.readRange 0 s.outLen = some o →
      step s = .next { s with script := rest, tx := s.tx ++ o }) ∧
    (s.phase ≠ .doneOk → step s = .refused .outNotReadable))

/-- The frame of SPLIT, CHUNK, PACK and SCAN: every register, flag, working register and byte of IN and OUT is unchanged; the
three units leave the host's data, SCAN leaves the unit's result. -/
def Obligations.UnitsAndScanLeaveTheBlock : Prop :=
  ∀ (s t : State) (i : Instr),
    ((∃ b D, i = .split b D) ∨ (∃ r, i = .chunk r) ∨ (∃ c, i = .pack c) ∨ (∃ D, i = .scan D)) → exec i s = .next t →
    sameInput s t ∧ sameStatus s t ∧ sameOut s t ∧ sameDecoder s t ∧ sameEncoder s t ∧
    t.script = s.script ∧ t.readPort = s.readPort ∧ t.tx = s.tx ∧
    ((∀ D, i ≠ .scan D) → t.rx = s.rx ∧ t.scanned = s.scanned) ∧ (∀ D, i = .scan D → t.unitOut = s.unitOut)

/-! ### ENCODE and DECODE as machines -/

/-- From the start of an ENCODE, with nothing pending from the host (log 5), the machine takes exactly `|IN| + 1` steps, BUSY until
the last (41_encoder.md R106, R107: the spec's decision D11, log 13), and ends in DONE_OK with CAUSE 0 and `Encode(D, b)` in OUT,
`b` the bytes of IN, under either CHUNK_TAIL (R104); IN is not modified (R108). (That the spec's step machine computes this is its
unproved claim, R106.) -/
def Obligations.EncoderMachineComputesEncode : Prop :=
  ∀ (s : State) (b : List Byte), s.script = [] → s.phase ≠ .busy → s.tooLong = false → s.input = some b →
    s.fitsOut (encodeFrame s.chunkTail s.cfgDelim b).length →
    ∃ s0 t : State, exec .encode s = .next s0 ∧ runSteps (b.length + 1) s0 = .next t ∧
      t.phase = .doneOk ∧ t.cause = none ∧ t.outLen = (encodeFrame s.chunkTail s.cfgDelim b).length ∧
      t.output = some (encodeFrame s.chunkTail s.cfgDelim b) ∧ sameInput s t ∧
      ∀ k ≤ b.length, ∃ u, runSteps k s0 = .next u ∧ u.phase = .busy

/-- From the start of a DECODE of any bytes `f`, with nothing pending from the host (log 5), the machine ends within `|f|` steps
(42_decoder.md R132; the step level is the spec's decision D11, log 13) and shows `Decode(D, f)`: DONE_OK with the decoded bytes
in OUT, or DONE_ERR with the cause (R121, R135); IN is not modified. That it ends on frames no encoder made rests on the spec's
decision D8, a length byte 0 raises (log 10); the result for the empty frame on D7 (log 11). An OUT of `|f| - 2` bytes is large
enough (20_memory.md R46). -/
def Obligations.DecoderMachineComputesDecode : Prop :=
  ∀ (s : State) (f : List Byte), s.script = [] → s.phase ≠ .busy → s.tooLong = false → s.input = some f →
    s.fitsOut (f.length - 2) →
    ∃ s0 t : State, exec .decode s = .next s0 ∧ (∃ k ≤ f.length, runSteps k s0 = .next t) ∧
      showsResult (decodeFrame s.cfgDelim f) t ∧ sameInput s t

/-- What holds after reset (the values the spec decides, 10_state.md R34, and the model's own for the working registers, log 3)
is a state of a run. -/
def Obligations.ResetIsARunState : Prop := State.reset.Inv

/-- The invariant of the machine, kept by every step, of the host or of the engine: both buffers in canonical form; CAUSE set
exactly in DONE_ERR; OUT_LEN the length of OUT in DONE_OK and 0 otherwise; OUT filled from 0 without a gap; `pos <= last =
|IN| - 1` while decoding; `i <= |IN|` and at most 254 accumulated bytes, none the delimiter, while encoding; OUT within the size
the host provided. -/
def Obligations.EveryStepKeepsTheInvariant : Prop :=
  ∀ s t : State, s.Inv → step s = .next t → t.Inv

/-- In a state of a run whose input is readable, with nothing pending from the host (log 5) and room for 257 more bytes in OUT (the
most one step appends: a full run's group with its empty one, and the delimiter), the engine does not stop: its step goes on, for
an ENCODE and for a DECODE of any bytes. That a length byte 0 goes on, into DONE_ERR, is the spec's decision D8 (log 10; U1 would
also allow a hang). -/
def Obligations.EngineNeverStops : Prop :=
  ∀ (s : State) (b : List Byte), s.Inv → s.script = [] → s.input = some b → s.hasRoom 257 = true → ∃ t, step s = .next t

/-- The engine never writes IN, nor the delimiter, the length or a parameter (20_memory.md R43): no instruction and no engine step
does. -/
def Obligations.EngineNeverWritesTheInput : Prop :=
  (∀ (s t : State) (i : Instr), exec i s = .next t → sameInput s t) ∧
  (∀ s t : State, engineStep s = .next t → sameInput s t ∧ sameHost s t)

/-- OUT is append-only within an operation (20_memory.md R44): a step of the engine that raises nothing leaves every byte already
there and never shortens it. -/
def Obligations.OutIsAppendOnly : Prop :=
  ∀ s t : State, s.script = [] → s.phase = .busy → step s = .next t → t.phase ≠ .doneErr →
    s.outIdx ≤ t.outIdx ∧ ∀ a < s.outIdx, t.outBuf.read a = s.outBuf.read a

/-- R20 and R174: the result of an operation is a function of its input and its delimiter (and the fixed parameters) alone: two
instances that are given the same operands show the same result after any number of steps, whatever their earlier
operations left in them, and wherever their platforms put them (ADDR_MAP is no operand). -/
def Obligations.NothingCarriesOver : Prop :=
  ∀ (c : Instr) (s t s1 : State), (c = .encode ∨ c = .decode) → s.phase ≠ .busy → t.phase ≠ .busy → sameOperands s t →
    exec c s = .next s1 →
    ∃ t1, exec c t = .next t1 ∧
      ∀ (k : Nat) (u : State), runSteps k s1 = .next u → ∃ v, runSteps k t1 = .next v ∧ sameResult u v

/-- Instances share nothing (60_exceptions.md R206, 20_memory.md R50, the spec's decision D17): a step of one leaves every other as
it is, and steps of two different instances give the same in either order. -/
def Obligations.InstancesAreIndependent : Prop :=
  (∀ (k : Nat) (ms ns : List State), stepOne k ms = .next ns →
    ns.length = ms.length ∧ ∀ j, j ≠ k → ns[j]? = ms[j]?) ∧
  (∀ (j k : Nat) (ms a b : List State), j ≠ k → stepOne j ms = .next a → stepOne k a = .next b →
    ∃ a', stepOne k ms = .next a' ∧ stepOne j a' = .next b)

/-! ### The laws of ENCODE and DECODE -/

/-- The length of a frame and the overhead bound under `plain` (the spec's derived law, 44_laws.md R165). -/
def Obligations.OverheadUnderPlain : Prop :=
  ∀ (D : Byte) (b : List Byte),
    (encodeFrame .plain D b).length =
      (b.length - b.count D) + ((splitRuns D b).map (fun r => max 1 ((r.length + 253) / 254))).sum + 1 ∧
    b.length + 2 ≤ (encodeFrame .plain D b).length ∧
    (encodeFrame .plain D b).length ≤ b.length + (max b.length 1 + 253) / 254 + 1 ∧
    (D ∉ b → (encodeFrame .plain D b).length = b.length + (max b.length 1 + 253) / 254 + 1)

/-- The length of a frame and the overhead bound under `pad` (the spec's derived law, 44_laws.md R166), and where it exceeds the
bound under `plain`. -/
def Obligations.OverheadUnderPad : Prop :=
  ∀ (D : Byte) (b : List Byte),
    (encodeFrame .pad D b).length = b.length + 2 + ((splitRuns D b).map (fun r => r.length / 254)).sum ∧
    b.length + 2 ≤ (encodeFrame .pad D b).length ∧
    (encodeFrame .pad D b).length ≤ b.length + b.length / 254 + 2 ∧
    (b.length + (max b.length 1 + 253) / 254 + 1 < (encodeFrame .pad D b).length ↔
      D ∉ b ∧ 0 < b.length ∧ b.length % 254 = 0)

/-- The delimiter value inside a frame (the spec's derived law, 44_laws.md R167): the last byte is `D`, and `D` occurs once more
for every chunk of length `D - 1`; so with `D = 0` it occurs exactly once. -/
def Obligations.DelimiterCountInAFrame : Prop :=
  ∀ (tail : ChunkTail) (D : Byte) (b : List Byte),
    (encodeFrame tail D b).getLast? = some D ∧
    (encodeFrame tail D b).count D = 1 + (allChunks tail D b).countP (fun c => c.length + 1 = D.toNat) ∧
    (D = 0 → (encodeFrame tail D b).count D = 1)

/-- Round trip under `pad` (the spec's derived law, 44_laws.md R169): DECODE undoes ENCODE on every buffer, and ENCODE is
injective. -/
def Obligations.RoundTripUnderPad : Prop :=
  ∀ D : Byte, (∀ b : List Byte, decodeFrame D (encodeFrame .pad D b) = .ok b) ∧
    ∀ b c : List Byte, encodeFrame .pad D b = encodeFrame .pad D c → b = c

/-- Round trip under `plain` (the spec's derived law, 44_laws.md R168): never an error; every delimiter that directly follows a run
whose length is a positive multiple of 254 is lost; the buffer comes back exactly if no run but the last has such a length. -/
def Obligations.RoundTripUnderPlain : Prop :=
  ∀ (D : Byte) (b : List Byte),
    decodeFrame D (encodeFrame .plain D b) = .ok (joinLossy D (splitRuns D b)) ∧
    (decodeFrame D (encodeFrame .plain D b) = .ok b ↔
      ∀ r ∈ (splitRuns D b).dropLast, ¬ (0 < r.length ∧ r.length % 254 = 0))

/-- ENCODE under `plain` is not injective (44_laws.md R168, derived): a delimiter behind any 254 other bytes leaves no trace. -/
def Obligations.PlainFramesCollide : Prop :=
  ∀ (D : Byte) (x y : List Byte), x.length = 254 → D ∉ x → y ≠ [] → D ∉ y →
    encodeFrame .plain D (x ++ [D] ++ y) = encodeFrame .plain D (x ++ y)

/-- Where the two settings of CHUNK_TAIL agree (44_laws.md R170, derived): with no run whose length is a positive multiple of 254
the frames are the same, the buffer comes back, and the bound of `plain` holds. -/
def Obligations.SettingsAgreeWithoutFullRuns : Prop :=
  ∀ (D : Byte) (b : List Byte), noFullRun D b →
    encodeFrame .plain D b = encodeFrame .pad D b ∧
    (∀ tail, decodeFrame D (encodeFrame tail D b) = .ok b) ∧
    (∀ tail, (encodeFrame tail D b).length ≤ b.length + (max b.length 1 + 253) / 254 + 1)

/-- The length of a decoded buffer (44_laws.md R173, derived): 0 for a one-byte frame, else at most `|f| - 2`. -/
def Obligations.DecodedLength : Prop :=
  ∀ (D : Byte) (f r : List Byte), decodeFrame D f = .ok r →
    1 ≤ f.length ∧ (f.length = 1 → r = []) ∧ (2 ≤ f.length → r.length ≤ f.length - 2)

/-- A frame decoded with another delimiter fails the TERM check with cause 1 (44_laws.md R177, derived). -/
def Obligations.MismatchedDelimiters : Prop :=
  ∀ (tail : ChunkTail) (D1 D2 : Byte) (b : List Byte), D1 ≠ D2 →
    decodeFrame D2 (encodeFrame tail D1 b) = .err .missingTerminalDelimiter

/-- The other direction is not a law (44_laws.md R172, 30_encoding.md R71, derived): frames are accepted that ENCODE never makes,
with no group, or with a data byte equal to the delimiter. -/
def Obligations.AcceptedFramesNeverEncoded : Prop :=
  ∀ (tail : ChunkTail) (D : Byte),
    decodeFrame D [D] = .ok [] ∧ (∀ b, encodeFrame tail D b ≠ [D]) ∧ (∀ b, 2 ≤ (encodeFrame tail D b).length) ∧
    encodeFrame tail D [] = [1, D] ∧ decodeFrame 0 [3, 0, 5, 0] = .ok [0, 5] ∧ ∀ b, encodeFrame tail 0 b ≠ [3, 0, 5, 0]

/-! ### The stream -/

/-- With delimiter 0 the scan finds the sender's frames (43_host_stream.md R154, derived): frames sent back to back are cut off the
received bytes one by one, whatever follows. -/
def Obligations.ScanFindsTheSentFrame : Prop :=
  ∀ (tail : ChunkTail) (m rest : List Byte),
    scanBytes 0 (encodeFrame tail 0 m ++ rest) = .frame (encodeFrame tail 0 m) rest

/-- A slice that SCAN gives ends with the delimiter and holds it nowhere else, so it cannot fail the TERM check, and nothing of
the stream is lost (43_host_stream.md R151, derived). -/
def Obligations.ScannedFramesPassTheTermCheck : Prop :=
  ∀ (D : Byte) (bs f rest : List Byte), scanBytes D bs = .frame f rest →
    f ++ rest = bs ∧ f.getLast? = some D ∧ f.count D = 1 ∧ decodeFrame D f ≠ .err .missingTerminalDelimiter

/-- With a delimiter other than 0 the scan can cut a frame short (43_host_stream.md R155, derived): for every message without the
delimiter whose length is `D - 1`, the first slice is the length byte alone and decodes to the empty message. -/
def Obligations.ScanHazardOfNonZeroDelimiters : Prop :=
  ∀ (tail : ChunkTail) (D : Byte) (m rest : List Byte), D ∉ m → m.length + 1 = D.toNat →
    scanBytes D (encodeFrame tail D m ++ rest) = .frame [D] ((encodeFrame tail D m ++ rest).drop 1) ∧
    decodeFrame D [D] = .ok []

/-! ### The host -/

/-- What a host may not do while an operation is BUSY (10_state.md R26, 20_memory.md R53, 43_host_stream.md R157; the spec's
decisions D3, D16): a write of CFG.DELIM, by name or by address, and every change of IN, IN_LEN or OUT is refused (the refusal of
the host's launch, with no effect: log 8). -/
def Obligations.OperandsAreStableWhileBusy : Prop :=
  ∀ (s : State) (rest : List HostAction), s.phase = .busy →
    (∀ v, s.script = .writeReg .cfgDelim v :: rest → step s = .refused .registerBusy) ∧
    (∀ v, s.script = .writeReg .inLen v :: rest → step s = .refused .bufferBusy) ∧
    (∀ a b, s.script = .writeIn a b :: rest → step s = .refused .bufferBusy) ∧
    (∀ bs, s.script = .loadIn bs :: rest → step s = .refused .bufferBusy) ∧
    (∀ size, s.script = .provideOut size :: rest → step s = .refused .bufferBusy) ∧
    (∀ f behind, s.scanned = .frame f behind → s.script = .passFrame :: rest → step s = .refused .bufferBusy) ∧
    (∀ addr v, s.script = .writeAt addr v :: rest →
      (s.locate addr = some (.register .cfgDelim) → step s = .refused .registerBusy) ∧
      (s.locate addr = some (.register .inLen) → step s = .refused .bufferBusy) ∧
      (∀ idx, s.locate addr = some (.inByte idx) → v < 256 → step s = .refused .bufferBusy))

/-- What a host sets while no operation is BUSY, each write changing nothing else (70_reset_and_hazards.md R223): CFG.DELIM takes
any byte (10_state.md R26); IN_LEN takes any number, one above a finite MAXLEN too, since R25's legal values end at MAXLEN but it
is the start that is then refused (20_memory.md R46, the spec's decision D6, U8; log 9); a byte written to IN is there, every
other index as before, and a whole buffer handed over is IN with its length (R32, one action: log 25); the size of the OUT
provided is kept (log 2). A value too wide for CFG.DELIM or CMD.OP is refused (log 24). -/
def Obligations.HostSetsTheDelimiter : Prop :=
  ∀ (s : State) (rest : List HostAction), s.phase ≠ .busy →
    (∀ d : Byte, s.script = .writeReg .cfgDelim d.toNat :: rest →
      step s = .next { s with cfgDelim := d, script := rest }) ∧
    (∀ v, s.script = .writeReg .inLen v :: rest → step s = .next { s with inLen := v, script := rest }) ∧
    (∀ (idx : Nat) (b : Byte), s.script = .writeIn idx b :: rest →
      ∃ t, step s = .next t ∧ t = { s with inBuf := t.inBuf, script := rest } ∧
        t.inBuf.read idx = some b ∧ ∀ a, a ≠ idx → t.inBuf.read a = s.inBuf.read a) ∧
    (∀ bs : List Byte, s.script = .loadIn bs :: rest →
      ∃ t, step s = .next t ∧ t = { s with inBuf := t.inBuf, inLen := bs.length, script := rest } ∧
        t.input = some bs ∧ ∀ a, t.inBuf.read a = bs[a]?) ∧
    (∀ size, s.script = .provideOut size :: rest → step s = .next { s with outCap := size, script := rest }) ∧
    (∀ v, 256 ≤ v → s.script = .writeReg .cfgDelim v :: rest → step s = .refused .valueTooWide) ∧
    (∀ v, 2 ≤ v → s.script = .writeReg .cmdOp v :: rest → step s = .refused .valueTooWide)

/-- OUT is readable only in DONE_OK and below OUT_LEN (10_state.md R34, 60_exceptions.md R197, decisions D10, D13): in a state of a
run such a read gives the host the byte there, every other is refused; a failed DECODE shows no byte. -/
def Obligations.OutIsReadableOnlyWhenDone : Prop :=
  ∀ (s : State) (idx : Nat) (rest : List HostAction), s.Inv → s.script = .readOut idx :: rest →
    (s.phase = .doneOk → idx < s.outLen →
      ∃ b, s.outBuf.read idx = some b ∧ step s = .next { s with script := rest, readPort := b.toNat }) ∧
    (¬ (s.phase = .doneOk ∧ idx < s.outLen) → step s = .refused .outNotReadable)

/-- What a host reads from the registers (10_state.md R25, R27; decisions D2, D4, D9, D12): MAXCHUNK is 254 always, PHASE and CAUSE
give their numbers, CAUSE 3 never occurs, OUT_LEN its value; a step with a read pending gives the host that value and changes
nothing else, and a read that R25 does not give, of CMD.OP, of IN_LEN, of CFG.DELIM while BUSY, is refused (log 17); the read-only
registers cannot be written (log 17). By address a host reaches
the register or the byte of IN or OUT that the platform's ADDR_MAP puts there, with the access it has by name, and nothing else
(10_state.md R32, 20_memory.md R47, U11; the form of the map and the refusals are the model's, log 22, log 24). -/
def Obligations.RegistersReadAsListed : Prop :=
  (∀ (s : State) (addr : Nat) (rest : List HostAction), s.script = .readAt addr :: rest →
    (∀ r, s.locate addr = some (.register r) → step s = step { s with script := .readReg r :: rest }) ∧
    (∀ idx, s.locate addr = some (.outByte idx) → step s = step { s with script := .readOut idx :: rest }) ∧
    (∀ idx, s.locate addr = some (.inByte idx) → step s = .refused .bufferAccessNotGiven) ∧
    (s.locate addr = none → step s = .refused .noSuchAddress)) ∧
  (∀ (s : State) (addr v : Nat) (rest : List HostAction), s.script = .writeAt addr v :: rest →
    (∀ r, s.locate addr = some (.register r) → step s = step { s with script := .writeReg r v :: rest }) ∧
    (∀ idx, ∀ b : Byte, s.locate addr = some (.inByte idx) → v = b.toNat →
      step s = step { s with script := .writeIn idx b :: rest }) ∧
    (∀ idx, s.locate addr = some (.inByte idx) → 256 ≤ v → step s = .refused .valueTooWide) ∧
    (∀ idx, s.locate addr = some (.outByte idx) → step s = .refused .bufferAccessNotGiven) ∧
    (s.locate addr = none → step s = .refused .noSuchAddress)) ∧
  (∀ (s : State) (r : Reg) (rest : List HostAction), s.script = .readReg r :: rest →
    (∀ v, readRegister r s = .next v → step s = .next { s with script := rest, readPort := v }) ∧
    (r = .cmdOp ∨ r = .inLen → step s = .refused .writeOnlyRegister) ∧
    (r = .cfgDelim → s.phase = .busy → step s = .refused .registerBusy)) ∧
  ∀ s : State,
    readRegister .cfgMaxchunk s = .next 254 ∧
    readRegister .statusPhase s = .next (match s.phase with | .idle => 0 | .busy => 1 | .doneOk => 2 | .doneErr => 3) ∧
    readRegister .statusCause s = .next (match s.cause with
      | none => 0 | some .missingTerminalDelimiter => 1 | some .invalidChunkLength => 2) ∧
    readRegister .outLen s = .next s.outLen ∧
    (s.phase ≠ .busy → readRegister .cfgDelim s = .next s.cfgDelim.toNat) ∧
    ∀ v, writeRegister .cfgMaxchunk v s = .refused .readOnlyRegister ∧
      writeRegister .statusPhase v s = .refused .readOnlyRegister ∧
      writeRegister .statusCause v s = .refused .readOnlyRegister ∧
      writeRegister .outLen v s = .refused .readOnlyRegister

/-- R221 and the values the spec decides for reset (10_state.md R34, decision D13): the default delimiter 0; IDLE, CAUSE 0, OP 0,
both lengths 0, no byte of a buffer readable, nothing pending. (CHUNK_TAIL and MAXLEN have the spec's defaults, log 1; no address
is given, the model's value, log 22.) -/
def Obligations.ResetValues : Prop :=
  State.reset.cfgDelim = 0 ∧ State.reset.phase = .idle ∧ State.reset.cause = none ∧ State.reset.cmdOp = .encode ∧
  State.reset.inLen = 0 ∧ State.reset.outLen = 0 ∧ readRegister .cfgMaxchunk State.reset = .next 254 ∧
  (∀ a, State.reset.inBuf.read a = none) ∧ (∀ a, State.reset.outBuf.read a = none) ∧
  State.reset.chunkTail = .plain ∧ State.reset.maxLen = none ∧ State.reset.addrMap = [] ∧ State.reset.script = []

/-- A reset at any moment abandons the operation in progress with no result and gives the registers their reset values (the
spec's decision D13, 70_reset_and_hazards.md R222); the parameters and the host's data stay (log 19). -/
def Obligations.ResetAbandonsTheOperation : Prop :=
  ∀ (s : State) (rest : List HostAction), s.script = .resetBlock :: rest →
    ∃ t, step s = .next t ∧ t.phase = .idle ∧ t.cause = none ∧ t.cfgDelim = 0 ∧ t.cmdOp = .encode ∧
      t.inLen = 0 ∧ t.outLen = 0 ∧ (∀ a, t.inBuf.read a = none) ∧ (∀ a, t.outBuf.read a = none) ∧
      t.chunkTail = s.chunkTail ∧ t.maxLen = s.maxLen ∧ t.addrMap = s.addrMap ∧ t.outCap = s.outCap ∧ t.script = rest ∧
      t.rx = s.rx ∧ t.tx = s.tx ∧ t.scanned = s.scanned ∧ t.readPort = s.readPort
end

