-- ==== Sys2Proof/Laws/State.lean ====
section
/-! SUPPORT. One lemma for each field of State under each named update, true by definition: later proofs cite these and never
unfold a record update. -/

namespace Sys2Proof.Machine

section setBusyFields
variable (s : State)

@[simp] theorem setBusy_chunkTail : (s.setBusy).chunkTail = s.chunkTail := rfl
@[simp] theorem setBusy_maxLen : (s.setBusy).maxLen = s.maxLen := rfl
@[simp] theorem setBusy_addrMap : (s.setBusy).addrMap = s.addrMap := rfl
@[simp] theorem setBusy_cfgDelim : (s.setBusy).cfgDelim = s.cfgDelim := rfl
@[simp] theorem setBusy_cmdOp : (s.setBusy).cmdOp = s.cmdOp := rfl
@[simp] theorem setBusy_phase : (s.setBusy).phase = .busy := rfl
@[simp] theorem setBusy_cause : (s.setBusy).cause = none := rfl
@[simp] theorem setBusy_inLen : (s.setBusy).inLen = s.inLen := rfl
@[simp] theorem setBusy_outLen : (s.setBusy).outLen = 0 := rfl
@[simp] theorem setBusy_inBuf : (s.setBusy).inBuf = s.inBuf := rfl
@[simp] theorem setBusy_outBuf : (s.setBusy).outBuf = s.outBuf := rfl
@[simp] theorem setBusy_outCap : (s.setBusy).outCap = s.outCap := rfl
@[simp] theorem setBusy_outIdx : (s.setBusy).outIdx = s.outIdx := rfl
@[simp] theorem setBusy_pos : (s.setBusy).pos = s.pos := rfl
@[simp] theorem setBusy_last : (s.setBusy).last = s.last := rfl
@[simp] theorem setBusy_i : (s.setBusy).i = s.i := rfl
@[simp] theorem setBusy_acc : (s.setBusy).acc = s.acc := rfl
@[simp] theorem setBusy_unitOut : (s.setBusy).unitOut = s.unitOut := rfl
@[simp] theorem setBusy_script : (s.setBusy).script = s.script := rfl
@[simp] theorem setBusy_readPort : (s.setBusy).readPort = s.readPort := rfl
@[simp] theorem setBusy_rx : (s.setBusy).rx = s.rx := rfl
@[simp] theorem setBusy_tx : (s.setBusy).tx = s.tx := rfl
@[simp] theorem setBusy_scanned : (s.setBusy).scanned = s.scanned := rfl

end setBusyFields

section setDoneOkFields
variable (s : State)

@[simp] theorem setDoneOk_chunkTail : (s.setDoneOk).chunkTail = s.chunkTail := rfl
@[simp] theorem setDoneOk_maxLen : (s.setDoneOk).maxLen = s.maxLen := rfl
@[simp] theorem setDoneOk_addrMap : (s.setDoneOk).addrMap = s.addrMap := rfl
@[simp] theorem setDoneOk_cfgDelim : (s.setDoneOk).cfgDelim = s.cfgDelim := rfl
@[simp] theorem setDoneOk_cmdOp : (s.setDoneOk).cmdOp = s.cmdOp := rfl
@[simp] theorem setDoneOk_phase : (s.setDoneOk).phase = .doneOk := rfl
@[simp] theorem setDoneOk_cause : (s.setDoneOk).cause = none := rfl
@[simp] theorem setDoneOk_inLen : (s.setDoneOk).inLen = s.inLen := rfl
@[simp] theorem setDoneOk_outLen : (s.setDoneOk).outLen = s.outIdx := rfl
@[simp] theorem setDoneOk_inBuf : (s.setDoneOk).inBuf = s.inBuf := rfl
@[simp] theorem setDoneOk_outBuf : (s.setDoneOk).outBuf = s.outBuf := rfl
@[simp] theorem setDoneOk_outCap : (s.setDoneOk).outCap = s.outCap := rfl
@[simp] theorem setDoneOk_outIdx : (s.setDoneOk).outIdx = s.outIdx := rfl
@[simp] theorem setDoneOk_pos : (s.setDoneOk).pos = s.pos := rfl
@[simp] theorem setDoneOk_last : (s.setDoneOk).last = s.last := rfl
@[simp] theorem setDoneOk_i : (s.setDoneOk).i = s.i := rfl
@[simp] theorem setDoneOk_acc : (s.setDoneOk).acc = s.acc := rfl
@[simp] theorem setDoneOk_unitOut : (s.setDoneOk).unitOut = s.unitOut := rfl
@[simp] theorem setDoneOk_script : (s.setDoneOk).script = s.script := rfl
@[simp] theorem setDoneOk_readPort : (s.setDoneOk).readPort = s.readPort := rfl
@[simp] theorem setDoneOk_rx : (s.setDoneOk).rx = s.rx := rfl
@[simp] theorem setDoneOk_tx : (s.setDoneOk).tx = s.tx := rfl
@[simp] theorem setDoneOk_scanned : (s.setDoneOk).scanned = s.scanned := rfl

end setDoneOkFields

section setDoneErrFields
variable (c : CorruptFrame) (s : State)

@[simp] theorem setDoneErr_chunkTail : (s.setDoneErr c).chunkTail = s.chunkTail := rfl
@[simp] theorem setDoneErr_maxLen : (s.setDoneErr c).maxLen = s.maxLen := rfl
@[simp] theorem setDoneErr_addrMap : (s.setDoneErr c).addrMap = s.addrMap := rfl
@[simp] theorem setDoneErr_cfgDelim : (s.setDoneErr c).cfgDelim = s.cfgDelim := rfl
@[simp] theorem setDoneErr_cmdOp : (s.setDoneErr c).cmdOp = s.cmdOp := rfl
@[simp] theorem setDoneErr_phase : (s.setDoneErr c).phase = .doneErr := rfl
@[simp] theorem setDoneErr_cause : (s.setDoneErr c).cause = some c := rfl
@[simp] theorem setDoneErr_inLen : (s.setDoneErr c).inLen = s.inLen := rfl
@[simp] theorem setDoneErr_outLen : (s.setDoneErr c).outLen = 0 := rfl
@[simp] theorem setDoneErr_inBuf : (s.setDoneErr c).inBuf = s.inBuf := rfl
@[simp] theorem setDoneErr_outBuf : (s.setDoneErr c).outBuf = s.outBuf := rfl
@[simp] theorem setDoneErr_outCap : (s.setDoneErr c).outCap = s.outCap := rfl
@[simp] theorem setDoneErr_outIdx : (s.setDoneErr c).outIdx = s.outIdx := rfl
@[simp] theorem setDoneErr_pos : (s.setDoneErr c).pos = s.pos := rfl
@[simp] theorem setDoneErr_last : (s.setDoneErr c).last = s.last := rfl
@[simp] theorem setDoneErr_i : (s.setDoneErr c).i = s.i := rfl
@[simp] theorem setDoneErr_acc : (s.setDoneErr c).acc = s.acc := rfl
@[simp] theorem setDoneErr_unitOut : (s.setDoneErr c).unitOut = s.unitOut := rfl
@[simp] theorem setDoneErr_script : (s.setDoneErr c).script = s.script := rfl
@[simp] theorem setDoneErr_readPort : (s.setDoneErr c).readPort = s.readPort := rfl
@[simp] theorem setDoneErr_rx : (s.setDoneErr c).rx = s.rx := rfl
@[simp] theorem setDoneErr_tx : (s.setDoneErr c).tx = s.tx := rfl
@[simp] theorem setDoneErr_scanned : (s.setDoneErr c).scanned = s.scanned := rfl

end setDoneErrFields

section discardOutFields
variable (s : State)

@[simp] theorem discardOut_chunkTail : (s.discardOut).chunkTail = s.chunkTail := rfl
@[simp] theorem discardOut_maxLen : (s.discardOut).maxLen = s.maxLen := rfl
@[simp] theorem discardOut_addrMap : (s.discardOut).addrMap = s.addrMap := rfl
@[simp] theorem discardOut_cfgDelim : (s.discardOut).cfgDelim = s.cfgDelim := rfl
@[simp] theorem discardOut_cmdOp : (s.discardOut).cmdOp = s.cmdOp := rfl
@[simp] theorem discardOut_phase : (s.discardOut).phase = s.phase := rfl
@[simp] theorem discardOut_cause : (s.discardOut).cause = s.cause := rfl
@[simp] theorem discardOut_inLen : (s.discardOut).inLen = s.inLen := rfl
@[simp] theorem discardOut_outLen : (s.discardOut).outLen = s.outLen := rfl
@[simp] theorem discardOut_inBuf : (s.discardOut).inBuf = s.inBuf := rfl
@[simp] theorem discardOut_outBuf : (s.discardOut).outBuf = [] := rfl
@[simp] theorem discardOut_outCap : (s.discardOut).outCap = s.outCap := rfl
@[simp] theorem discardOut_outIdx : (s.discardOut).outIdx = 0 := rfl
@[simp] theorem discardOut_pos : (s.discardOut).pos = s.pos := rfl
@[simp] theorem discardOut_last : (s.discardOut).last = s.last := rfl
@[simp] theorem discardOut_i : (s.discardOut).i = s.i := rfl
@[simp] theorem discardOut_acc : (s.discardOut).acc = s.acc := rfl
@[simp] theorem discardOut_unitOut : (s.discardOut).unitOut = s.unitOut := rfl
@[simp] theorem discardOut_script : (s.discardOut).script = s.script := rfl
@[simp] theorem discardOut_readPort : (s.discardOut).readPort = s.readPort := rfl
@[simp] theorem discardOut_rx : (s.discardOut).rx = s.rx := rfl
@[simp] theorem discardOut_tx : (s.discardOut).tx = s.tx := rfl
@[simp] theorem discardOut_scanned : (s.discardOut).scanned = s.scanned := rfl

end discardOutFields

section pushOutFields
variable (bs : List Byte) (s : State)

@[simp] theorem pushOut_chunkTail : (s.pushOut bs).chunkTail = s.chunkTail := rfl
@[simp] theorem pushOut_maxLen : (s.pushOut bs).maxLen = s.maxLen := rfl
@[simp] theorem pushOut_addrMap : (s.pushOut bs).addrMap = s.addrMap := rfl
@[simp] theorem pushOut_cfgDelim : (s.pushOut bs).cfgDelim = s.cfgDelim := rfl
@[simp] theorem pushOut_cmdOp : (s.pushOut bs).cmdOp = s.cmdOp := rfl
@[simp] theorem pushOut_phase : (s.pushOut bs).phase = s.phase := rfl
@[simp] theorem pushOut_cause : (s.pushOut bs).cause = s.cause := rfl
@[simp] theorem pushOut_inLen : (s.pushOut bs).inLen = s.inLen := rfl
@[simp] theorem pushOut_outLen : (s.pushOut bs).outLen = s.outLen := rfl
@[simp] theorem pushOut_inBuf : (s.pushOut bs).inBuf = s.inBuf := rfl
@[simp] theorem pushOut_outBuf : (s.pushOut bs).outBuf = s.outBuf.writeBytes s.outIdx bs := rfl
@[simp] theorem pushOut_outCap : (s.pushOut bs).outCap = s.outCap := rfl
@[simp] theorem pushOut_outIdx : (s.pushOut bs).outIdx = s.outIdx + bs.length := rfl
@[simp] theorem pushOut_pos : (s.pushOut bs).pos = s.pos := rfl
@[simp] theorem pushOut_last : (s.pushOut bs).last = s.last := rfl
@[simp] theorem pushOut_i : (s.pushOut bs).i = s.i := rfl
@[simp] theorem pushOut_acc : (s.pushOut bs).acc = s.acc := rfl
@[simp] theorem pushOut_unitOut : (s.pushOut bs).unitOut = s.unitOut := rfl
@[simp] theorem pushOut_script : (s.pushOut bs).script = s.script := rfl
@[simp] theorem pushOut_readPort : (s.pushOut bs).readPort = s.readPort := rfl
@[simp] theorem pushOut_rx : (s.pushOut bs).rx = s.rx := rfl
@[simp] theorem pushOut_tx : (s.pushOut bs).tx = s.tx := rfl
@[simp] theorem pushOut_scanned : (s.pushOut bs).scanned = s.scanned := rfl

end pushOutFields

section startOperationFields
variable (op : Op) (s : State)

@[simp] theorem startOperation_chunkTail : (s.startOperation op).chunkTail = s.chunkTail := rfl
@[simp] theorem startOperation_maxLen : (s.startOperation op).maxLen = s.maxLen := rfl
@[simp] theorem startOperation_addrMap : (s.startOperation op).addrMap = s.addrMap := rfl
@[simp] theorem startOperation_cfgDelim : (s.startOperation op).cfgDelim = s.cfgDelim := rfl
@[simp] theorem startOperation_cmdOp : (s.startOperation op).cmdOp = op := rfl
@[simp] theorem startOperation_phase : (s.startOperation op).phase = .busy := rfl
@[simp] theorem startOperation_cause : (s.startOperation op).cause = none := rfl
@[simp] theorem startOperation_inLen : (s.startOperation op).inLen = s.inLen := rfl
@[simp] theorem startOperation_outLen : (s.startOperation op).outLen = 0 := rfl
@[simp] theorem startOperation_inBuf : (s.startOperation op).inBuf = s.inBuf := rfl
@[simp] theorem startOperation_outBuf : (s.startOperation op).outBuf = [] := rfl
@[simp] theorem startOperation_outCap : (s.startOperation op).outCap = s.outCap := rfl
@[simp] theorem startOperation_outIdx : (s.startOperation op).outIdx = 0 := rfl
@[simp] theorem startOperation_pos : (s.startOperation op).pos = s.pos := rfl
@[simp] theorem startOperation_last : (s.startOperation op).last = s.last := rfl
@[simp] theorem startOperation_i : (s.startOperation op).i = s.i := rfl
@[simp] theorem startOperation_acc : (s.startOperation op).acc = s.acc := rfl
@[simp] theorem startOperation_unitOut : (s.startOperation op).unitOut = s.unitOut := rfl
@[simp] theorem startOperation_script : (s.startOperation op).script = s.script := rfl
@[simp] theorem startOperation_readPort : (s.startOperation op).readPort = s.readPort := rfl
@[simp] theorem startOperation_rx : (s.startOperation op).rx = s.rx := rfl
@[simp] theorem startOperation_tx : (s.startOperation op).tx = s.tx := rfl
@[simp] theorem startOperation_scanned : (s.startOperation op).scanned = s.scanned := rfl

end startOperationFields

section startEncoderFields
variable (s : State)

@[simp] theorem startEncoder_chunkTail : (s.startEncoder).chunkTail = s.chunkTail := rfl
@[simp] theorem startEncoder_maxLen : (s.startEncoder).maxLen = s.maxLen := rfl
@[simp] theorem startEncoder_addrMap : (s.startEncoder).addrMap = s.addrMap := rfl
@[simp] theorem startEncoder_cfgDelim : (s.startEncoder).cfgDelim = s.cfgDelim := rfl
@[simp] theorem startEncoder_cmdOp : (s.startEncoder).cmdOp = s.cmdOp := rfl
@[simp] theorem startEncoder_phase : (s.startEncoder).phase = s.phase := rfl
@[simp] theorem startEncoder_cause : (s.startEncoder).cause = s.cause := rfl
@[simp] theorem startEncoder_inLen : (s.startEncoder).inLen = s.inLen := rfl
@[simp] theorem startEncoder_outLen : (s.startEncoder).outLen = s.outLen := rfl
@[simp] theorem startEncoder_inBuf : (s.startEncoder).inBuf = s.inBuf := rfl
@[simp] theorem startEncoder_outBuf : (s.startEncoder).outBuf = s.outBuf := rfl
@[simp] theorem startEncoder_outCap : (s.startEncoder).outCap = s.outCap := rfl
@[simp] theorem startEncoder_outIdx : (s.startEncoder).outIdx = s.outIdx := rfl
@[simp] theorem startEncoder_pos : (s.startEncoder).pos = s.pos := rfl
@[simp] theorem startEncoder_last : (s.startEncoder).last = s.last := rfl
@[simp] theorem startEncoder_i : (s.startEncoder).i = 0 := rfl
@[simp] theorem startEncoder_acc : (s.startEncoder).acc = [] := rfl
@[simp] theorem startEncoder_unitOut : (s.startEncoder).unitOut = s.unitOut := rfl
@[simp] theorem startEncoder_script : (s.startEncoder).script = s.script := rfl
@[simp] theorem startEncoder_readPort : (s.startEncoder).readPort = s.readPort := rfl
@[simp] theorem startEncoder_rx : (s.startEncoder).rx = s.rx := rfl
@[simp] theorem startEncoder_tx : (s.startEncoder).tx = s.tx := rfl
@[simp] theorem startEncoder_scanned : (s.startEncoder).scanned = s.scanned := rfl

end startEncoderFields

section startDecoderFields
variable (s : State)

@[simp] theorem startDecoder_chunkTail : (s.startDecoder).chunkTail = s.chunkTail := rfl
@[simp] theorem startDecoder_maxLen : (s.startDecoder).maxLen = s.maxLen := rfl
@[simp] theorem startDecoder_addrMap : (s.startDecoder).addrMap = s.addrMap := rfl
@[simp] theorem startDecoder_cfgDelim : (s.startDecoder).cfgDelim = s.cfgDelim := rfl
@[simp] theorem startDecoder_cmdOp : (s.startDecoder).cmdOp = s.cmdOp := rfl
@[simp] theorem startDecoder_phase : (s.startDecoder).phase = s.phase := rfl
@[simp] theorem startDecoder_cause : (s.startDecoder).cause = s.cause := rfl
@[simp] theorem startDecoder_inLen : (s.startDecoder).inLen = s.inLen := rfl
@[simp] theorem startDecoder_outLen : (s.startDecoder).outLen = s.outLen := rfl
@[simp] theorem startDecoder_inBuf : (s.startDecoder).inBuf = s.inBuf := rfl
@[simp] theorem startDecoder_outBuf : (s.startDecoder).outBuf = s.outBuf := rfl
@[simp] theorem startDecoder_outCap : (s.startDecoder).outCap = s.outCap := rfl
@[simp] theorem startDecoder_outIdx : (s.startDecoder).outIdx = s.outIdx := rfl
@[simp] theorem startDecoder_pos : (s.startDecoder).pos = 0 := rfl
@[simp] theorem startDecoder_last : (s.startDecoder).last = s.inLen - 1 := rfl
@[simp] theorem startDecoder_i : (s.startDecoder).i = s.i := rfl
@[simp] theorem startDecoder_acc : (s.startDecoder).acc = s.acc := rfl
@[simp] theorem startDecoder_unitOut : (s.startDecoder).unitOut = s.unitOut := rfl
@[simp] theorem startDecoder_script : (s.startDecoder).script = s.script := rfl
@[simp] theorem startDecoder_readPort : (s.startDecoder).readPort = s.readPort := rfl
@[simp] theorem startDecoder_rx : (s.startDecoder).rx = s.rx := rfl
@[simp] theorem startDecoder_tx : (s.startDecoder).tx = s.tx := rfl
@[simp] theorem startDecoder_scanned : (s.startDecoder).scanned = s.scanned := rfl

end startDecoderFields

section advanceFields
variable (L : Byte) (s : State)

@[simp] theorem advance_chunkTail : (s.advance L).chunkTail = s.chunkTail := rfl
@[simp] theorem advance_maxLen : (s.advance L).maxLen = s.maxLen := rfl
@[simp] theorem advance_addrMap : (s.advance L).addrMap = s.addrMap := rfl
@[simp] theorem advance_cfgDelim : (s.advance L).cfgDelim = s.cfgDelim := rfl
@[simp] theorem advance_cmdOp : (s.advance L).cmdOp = s.cmdOp := rfl
@[simp] theorem advance_phase : (s.advance L).phase = s.phase := rfl
@[simp] theorem advance_cause : (s.advance L).cause = s.cause := rfl
@[simp] theorem advance_inLen : (s.advance L).inLen = s.inLen := rfl
@[simp] theorem advance_outLen : (s.advance L).outLen = s.outLen := rfl
@[simp] theorem advance_inBuf : (s.advance L).inBuf = s.inBuf := rfl
@[simp] theorem advance_outBuf : (s.advance L).outBuf = s.outBuf := rfl
@[simp] theorem advance_outCap : (s.advance L).outCap = s.outCap := rfl
@[simp] theorem advance_outIdx : (s.advance L).outIdx = s.outIdx := rfl
@[simp] theorem advance_pos : (s.advance L).pos = s.nextPos L := rfl
@[simp] theorem advance_last : (s.advance L).last = s.last := rfl
@[simp] theorem advance_i : (s.advance L).i = s.i := rfl
@[simp] theorem advance_acc : (s.advance L).acc = s.acc := rfl
@[simp] theorem advance_unitOut : (s.advance L).unitOut = s.unitOut := rfl
@[simp] theorem advance_script : (s.advance L).script = s.script := rfl
@[simp] theorem advance_readPort : (s.advance L).readPort = s.readPort := rfl
@[simp] theorem advance_rx : (s.advance L).rx = s.rx := rfl
@[simp] theorem advance_tx : (s.advance L).tx = s.tx := rfl
@[simp] theorem advance_scanned : (s.advance L).scanned = s.scanned := rfl

end advanceFields

section setAccFields
variable (a : List Byte) (s : State)

@[simp] theorem setAcc_chunkTail : (s.setAcc a).chunkTail = s.chunkTail := rfl
@[simp] theorem setAcc_maxLen : (s.setAcc a).maxLen = s.maxLen := rfl
@[simp] theorem setAcc_addrMap : (s.setAcc a).addrMap = s.addrMap := rfl
@[simp] theorem setAcc_cfgDelim : (s.setAcc a).cfgDelim = s.cfgDelim := rfl
@[simp] theorem setAcc_cmdOp : (s.setAcc a).cmdOp = s.cmdOp := rfl
@[simp] theorem setAcc_phase : (s.setAcc a).phase = s.phase := rfl
@[simp] theorem setAcc_cause : (s.setAcc a).cause = s.cause := rfl
@[simp] theorem setAcc_inLen : (s.setAcc a).inLen = s.inLen := rfl
@[simp] theorem setAcc_outLen : (s.setAcc a).outLen = s.outLen := rfl
@[simp] theorem setAcc_inBuf : (s.setAcc a).inBuf = s.inBuf := rfl
@[simp] theorem setAcc_outBuf : (s.setAcc a).outBuf = s.outBuf := rfl
@[simp] theorem setAcc_outCap : (s.setAcc a).outCap = s.outCap := rfl
@[simp] theorem setAcc_outIdx : (s.setAcc a).outIdx = s.outIdx := rfl
@[simp] theorem setAcc_pos : (s.setAcc a).pos = s.pos := rfl
@[simp] theorem setAcc_last : (s.setAcc a).last = s.last := rfl
@[simp] theorem setAcc_i : (s.setAcc a).i = s.i := rfl
@[simp] theorem setAcc_acc : (s.setAcc a).acc = a := rfl
@[simp] theorem setAcc_unitOut : (s.setAcc a).unitOut = s.unitOut := rfl
@[simp] theorem setAcc_script : (s.setAcc a).script = s.script := rfl
@[simp] theorem setAcc_readPort : (s.setAcc a).readPort = s.readPort := rfl
@[simp] theorem setAcc_rx : (s.setAcc a).rx = s.rx := rfl
@[simp] theorem setAcc_tx : (s.setAcc a).tx = s.tx := rfl
@[simp] theorem setAcc_scanned : (s.setAcc a).scanned = s.scanned := rfl

end setAccFields

section nextByteFields
variable (s : State)

@[simp] theorem nextByte_chunkTail : (s.nextByte).chunkTail = s.chunkTail := rfl
@[simp] theorem nextByte_maxLen : (s.nextByte).maxLen = s.maxLen := rfl
@[simp] theorem nextByte_addrMap : (s.nextByte).addrMap = s.addrMap := rfl
@[simp] theorem nextByte_cfgDelim : (s.nextByte).cfgDelim = s.cfgDelim := rfl
@[simp] theorem nextByte_cmdOp : (s.nextByte).cmdOp = s.cmdOp := rfl
@[simp] theorem nextByte_phase : (s.nextByte).phase = s.phase := rfl
@[simp] theorem nextByte_cause : (s.nextByte).cause = s.cause := rfl
@[simp] theorem nextByte_inLen : (s.nextByte).inLen = s.inLen := rfl
@[simp] theorem nextByte_outLen : (s.nextByte).outLen = s.outLen := rfl
@[simp] theorem nextByte_inBuf : (s.nextByte).inBuf = s.inBuf := rfl
@[simp] theorem nextByte_outBuf : (s.nextByte).outBuf = s.outBuf := rfl
@[simp] theorem nextByte_outCap : (s.nextByte).outCap = s.outCap := rfl
@[simp] theorem nextByte_outIdx : (s.nextByte).outIdx = s.outIdx := rfl
@[simp] theorem nextByte_pos : (s.nextByte).pos = s.pos := rfl
@[simp] theorem nextByte_last : (s.nextByte).last = s.last := rfl
@[simp] theorem nextByte_i : (s.nextByte).i = s.i + 1 := rfl
@[simp] theorem nextByte_acc : (s.nextByte).acc = s.acc := rfl
@[simp] theorem nextByte_unitOut : (s.nextByte).unitOut = s.unitOut := rfl
@[simp] theorem nextByte_script : (s.nextByte).script = s.script := rfl
@[simp] theorem nextByte_readPort : (s.nextByte).readPort = s.readPort := rfl
@[simp] theorem nextByte_rx : (s.nextByte).rx = s.rx := rfl
@[simp] theorem nextByte_tx : (s.nextByte).tx = s.tx := rfl
@[simp] theorem nextByte_scanned : (s.nextByte).scanned = s.scanned := rfl

end nextByteFields

section withUnitFields
variable (u : UnitResult) (s : State)

@[simp] theorem withUnit_chunkTail : (s.withUnit u).chunkTail = s.chunkTail := rfl
@[simp] theorem withUnit_maxLen : (s.withUnit u).maxLen = s.maxLen := rfl
@[simp] theorem withUnit_addrMap : (s.withUnit u).addrMap = s.addrMap := rfl
@[simp] theorem withUnit_cfgDelim : (s.withUnit u).cfgDelim = s.cfgDelim := rfl
@[simp] theorem withUnit_cmdOp : (s.withUnit u).cmdOp = s.cmdOp := rfl
@[simp] theorem withUnit_phase : (s.withUnit u).phase = s.phase := rfl
@[simp] theorem withUnit_cause : (s.withUnit u).cause = s.cause := rfl
@[simp] theorem withUnit_inLen : (s.withUnit u).inLen = s.inLen := rfl
@[simp] theorem withUnit_outLen : (s.withUnit u).outLen = s.outLen := rfl
@[simp] theorem withUnit_inBuf : (s.withUnit u).inBuf = s.inBuf := rfl
@[simp] theorem withUnit_outBuf : (s.withUnit u).outBuf = s.outBuf := rfl
@[simp] theorem withUnit_outCap : (s.withUnit u).outCap = s.outCap := rfl
@[simp] theorem withUnit_outIdx : (s.withUnit u).outIdx = s.outIdx := rfl
@[simp] theorem withUnit_pos : (s.withUnit u).pos = s.pos := rfl
@[simp] theorem withUnit_last : (s.withUnit u).last = s.last := rfl
@[simp] theorem withUnit_i : (s.withUnit u).i = s.i := rfl
@[simp] theorem withUnit_acc : (s.withUnit u).acc = s.acc := rfl
@[simp] theorem withUnit_unitOut : (s.withUnit u).unitOut = u := rfl
@[simp] theorem withUnit_script : (s.withUnit u).script = s.script := rfl
@[simp] theorem withUnit_readPort : (s.withUnit u).readPort = s.readPort := rfl
@[simp] theorem withUnit_rx : (s.withUnit u).rx = s.rx := rfl
@[simp] theorem withUnit_tx : (s.withUnit u).tx = s.tx := rfl
@[simp] theorem withUnit_scanned : (s.withUnit u).scanned = s.scanned := rfl

end withUnitFields

section setScriptFields
variable (as : List HostAction) (s : State)

@[simp] theorem setScript_chunkTail : (s.setScript as).chunkTail = s.chunkTail := rfl
@[simp] theorem setScript_maxLen : (s.setScript as).maxLen = s.maxLen := rfl
@[simp] theorem setScript_addrMap : (s.setScript as).addrMap = s.addrMap := rfl
@[simp] theorem setScript_cfgDelim : (s.setScript as).cfgDelim = s.cfgDelim := rfl
@[simp] theorem setScript_cmdOp : (s.setScript as).cmdOp = s.cmdOp := rfl
@[simp] theorem setScript_phase : (s.setScript as).phase = s.phase := rfl
@[simp] theorem setScript_cause : (s.setScript as).cause = s.cause := rfl
@[simp] theorem setScript_inLen : (s.setScript as).inLen = s.inLen := rfl
@[simp] theorem setScript_outLen : (s.setScript as).outLen = s.outLen := rfl
@[simp] theorem setScript_inBuf : (s.setScript as).inBuf = s.inBuf := rfl
@[simp] theorem setScript_outBuf : (s.setScript as).outBuf = s.outBuf := rfl
@[simp] theorem setScript_outCap : (s.setScript as).outCap = s.outCap := rfl
@[simp] theorem setScript_outIdx : (s.setScript as).outIdx = s.outIdx := rfl
@[simp] theorem setScript_pos : (s.setScript as).pos = s.pos := rfl
@[simp] theorem setScript_last : (s.setScript as).last = s.last := rfl
@[simp] theorem setScript_i : (s.setScript as).i = s.i := rfl
@[simp] theorem setScript_acc : (s.setScript as).acc = s.acc := rfl
@[simp] theorem setScript_unitOut : (s.setScript as).unitOut = s.unitOut := rfl
@[simp] theorem setScript_script : (s.setScript as).script = as := rfl
@[simp] theorem setScript_readPort : (s.setScript as).readPort = s.readPort := rfl
@[simp] theorem setScript_rx : (s.setScript as).rx = s.rx := rfl
@[simp] theorem setScript_tx : (s.setScript as).tx = s.tx := rfl
@[simp] theorem setScript_scanned : (s.setScript as).scanned = s.scanned := rfl

end setScriptFields

section afterScanFields
variable (r : ScanResult) (s : State)

@[simp] theorem afterScan_chunkTail : (s.afterScan r).chunkTail = s.chunkTail := by cases r <;> rfl
@[simp] theorem afterScan_maxLen : (s.afterScan r).maxLen = s.maxLen := by cases r <;> rfl
@[simp] theorem afterScan_addrMap : (s.afterScan r).addrMap = s.addrMap := by cases r <;> rfl
@[simp] theorem afterScan_cfgDelim : (s.afterScan r).cfgDelim = s.cfgDelim := by cases r <;> rfl
@[simp] theorem afterScan_cmdOp : (s.afterScan r).cmdOp = s.cmdOp := by cases r <;> rfl
@[simp] theorem afterScan_phase : (s.afterScan r).phase = s.phase := by cases r <;> rfl
@[simp] theorem afterScan_cause : (s.afterScan r).cause = s.cause := by cases r <;> rfl
@[simp] theorem afterScan_inLen : (s.afterScan r).inLen = s.inLen := by cases r <;> rfl
@[simp] theorem afterScan_outLen : (s.afterScan r).outLen = s.outLen := by cases r <;> rfl
@[simp] theorem afterScan_inBuf : (s.afterScan r).inBuf = s.inBuf := by cases r <;> rfl
@[simp] theorem afterScan_outBuf : (s.afterScan r).outBuf = s.outBuf := by cases r <;> rfl
@[simp] theorem afterScan_outCap : (s.afterScan r).outCap = s.outCap := by cases r <;> rfl
@[simp] theorem afterScan_outIdx : (s.afterScan r).outIdx = s.outIdx := by cases r <;> rfl
@[simp] theorem afterScan_pos : (s.afterScan r).pos = s.pos := by cases r <;> rfl
@[simp] theorem afterScan_last : (s.afterScan r).last = s.last := by cases r <;> rfl
@[simp] theorem afterScan_i : (s.afterScan r).i = s.i := by cases r <;> rfl
@[simp] theorem afterScan_acc : (s.afterScan r).acc = s.acc := by cases r <;> rfl
@[simp] theorem afterScan_unitOut : (s.afterScan r).unitOut = s.unitOut := by cases r <;> rfl
@[simp] theorem afterScan_script : (s.afterScan r).script = s.script := by cases r <;> rfl
@[simp] theorem afterScan_readPort : (s.afterScan r).readPort = s.readPort := by cases r <;> rfl
@[simp] theorem afterScan_tx : (s.afterScan r).tx = s.tx := by cases r <;> rfl
@[simp] theorem afterScan_scanned : (s.afterScan r).scanned = r := by cases r <;> rfl
@[simp] theorem afterScan_rx_noFrameYet : (s.afterScan .noFrameYet).rx = s.rx := rfl
@[simp] theorem afterScan_rx_frame (f rest : List Byte) : (s.afterScan (.frame f rest)).rx = rest := rfl

end afterScanFields

section resetBlockFields
variable (s : State)

@[simp] theorem resetBlock_chunkTail : s.resetBlock.chunkTail = s.chunkTail := rfl
@[simp] theorem resetBlock_maxLen : s.resetBlock.maxLen = s.maxLen := rfl
@[simp] theorem resetBlock_addrMap : s.resetBlock.addrMap = s.addrMap := rfl
@[simp] theorem resetBlock_cfgDelim : s.resetBlock.cfgDelim = State.reset.cfgDelim := rfl
@[simp] theorem resetBlock_cmdOp : s.resetBlock.cmdOp = State.reset.cmdOp := rfl
@[simp] theorem resetBlock_phase : s.resetBlock.phase = State.reset.phase := rfl
@[simp] theorem resetBlock_cause : s.resetBlock.cause = State.reset.cause := rfl
@[simp] theorem resetBlock_inLen : s.resetBlock.inLen = State.reset.inLen := rfl
@[simp] theorem resetBlock_outLen : s.resetBlock.outLen = State.reset.outLen := rfl
@[simp] theorem resetBlock_inBuf : s.resetBlock.inBuf = State.reset.inBuf := rfl
@[simp] theorem resetBlock_outBuf : s.resetBlock.outBuf = State.reset.outBuf := rfl
@[simp] theorem resetBlock_outCap : s.resetBlock.outCap = s.outCap := rfl
@[simp] theorem resetBlock_outIdx : s.resetBlock.outIdx = State.reset.outIdx := rfl
@[simp] theorem resetBlock_pos : s.resetBlock.pos = State.reset.pos := rfl
@[simp] theorem resetBlock_last : s.resetBlock.last = State.reset.last := rfl
@[simp] theorem resetBlock_i : s.resetBlock.i = State.reset.i := rfl
@[simp] theorem resetBlock_acc : s.resetBlock.acc = State.reset.acc := rfl
@[simp] theorem resetBlock_unitOut : s.resetBlock.unitOut = State.reset.unitOut := rfl
@[simp] theorem resetBlock_script : s.resetBlock.script = s.script := rfl
@[simp] theorem resetBlock_readPort : s.resetBlock.readPort = s.readPort := rfl
@[simp] theorem resetBlock_rx : s.resetBlock.rx = s.rx := rfl
@[simp] theorem resetBlock_tx : s.resetBlock.tx = s.tx := rfl
@[simp] theorem resetBlock_scanned : s.resetBlock.scanned = s.scanned := rfl

end resetBlockFields

end Sys2Proof.Machine
end

