-- ==== Sys2Proof/Laws/Memory.lean ====
section
/-! SUPPORT. The laws of the buffers: read after write, the canonical form, and what appending to OUT does to its bytes. -/

namespace Sys2Proof.Machine

@[simp] theorem read_nil (a : Nat) : Memory.read [] a = none := rfl

theorem read_write_same (m : Memory) (a : Nat) (b : Byte) : (m.write a b).read a = some b := by
  induction m with
  | nil => simp [Memory.write, Memory.read]
  | cons c m ih =>
    obtain ⟨a', b'⟩ := c
    unfold Memory.write
    split
    · simp [Memory.read]
    · split
      · simp [Memory.read]
      · rename_i h
        simpa [Memory.read, h] using ih

theorem read_write_other (m : Memory) {a x : Nat} (b : Byte) (h : x ≠ a) :
    (m.write a b).read x = m.read x := by
  induction m with
  | nil => simp [Memory.write, Memory.read, h]
  | cons c m ih =>
    obtain ⟨a', b'⟩ := c
    unfold Memory.write
    split
    · simp [Memory.read, h]
    · split
      · rename_i h'
        subst h'
        simp [Memory.read, h]
      · simp [Memory.read, ih]

/-- `wf` says that the indices rise strictly. -/
theorem wf_iff (m : Memory) : m.wf = true ↔ (m.map Prod.fst).Pairwise (· < ·) := by
  have chain : m.wf = true ↔ (m.map Prod.fst).IsChain (· < ·) := by
    induction m with
    | nil => simp [Memory.wf]
    | cons c m ih =>
      obtain ⟨a, b⟩ := c
      cases m with
      | nil => simp [Memory.wf]
      | cons d m =>
        obtain ⟨a', b'⟩ := d
        simp only [Memory.wf, Bool.and_eq_true, decide_eq_true_eq, ih, List.map_cons,
          List.isChain_cons_cons]
  rw [chain, List.isChain_iff_pairwise]

/-- The indices listed after a write are the ones listed before and the one written. -/
theorem mem_keys_write (m : Memory) (a : Nat) (b : Byte) (x : Nat) :
    x ∈ (m.write a b).map Prod.fst ↔ x = a ∨ x ∈ m.map Prod.fst := by
  induction m with
  | nil => simp [Memory.write]
  | cons c m ih =>
    obtain ⟨a', b'⟩ := c
    unfold Memory.write
    split
    · simp
    · split
      · rename_i h
        simp [h]
      · rw [List.map_cons, List.mem_cons, ih, List.map_cons, List.mem_cons]
        tauto

theorem write_wf (m : Memory) (a : Nat) (b : Byte) (h : m.wf = true) : (m.write a b).wf = true := by
  rw [wf_iff] at h ⊢
  induction m with
  | nil => simp [Memory.write]
  | cons c m ih =>
    obtain ⟨a', b'⟩ := c
    have below : ∀ y ∈ m.map Prod.fst, a' < y := (List.pairwise_cons.mp h).1
    have tail := (List.pairwise_cons.mp h).2
    unfold Memory.write
    split
    · rename_i hlt
      refine List.pairwise_cons.mpr ⟨fun y hy => ?_, h⟩
      rcases List.mem_cons.mp hy with rfl | hy
      · exact hlt
      · exact lt_trans hlt (below y hy)
    · split
      · rename_i heq
        subst heq
        exact h
      · refine List.pairwise_cons.mpr ⟨fun y hy => ?_, ih tail⟩
        rcases (mem_keys_write m a b y).mp hy with rfl | hy
        · simp only
          omega
        · exact below y hy

theorem writeBytes_wf (m : Memory) (a : Nat) (bs : List Byte) (h : m.wf = true) :
    (m.writeBytes a bs).wf = true := by
  induction bs generalizing m a with
  | nil => exact h
  | cons b bs ih => exact ih _ _ (write_wf m a b h)

theorem cellsFrom_keys (a : Nat) (bs : List Byte) :
    (Memory.cellsFrom a bs).map Prod.fst = List.range' a bs.length := by
  induction bs generalizing a with
  | nil => rfl
  | cons b bs ih => simp [Memory.cellsFrom, ih, List.range'_succ]

theorem ofBytes_wf (bs : List Byte) : (Memory.ofBytes bs).wf = true := by
  rw [wf_iff, Memory.ofBytes, cellsFrom_keys]
  exact List.pairwise_lt_range'

/-- A byte outside the bytes written is what it was. -/
theorem read_writeBytes_outside (m : Memory) (a x : Nat) (bs : List Byte) (h : x < a ∨ a + bs.length ≤ x) :
    (m.writeBytes a bs).read x = m.read x := by
  induction bs generalizing m a with
  | nil => rfl
  | cons b bs ih =>
    simp only [List.length_cons] at h
    rw [Memory.writeBytes, ih _ _ (by omega), read_write_other _ _ (by omega)]

/-- A byte written is what was written there. -/
theorem read_writeBytes_inside (m : Memory) (a k : Nat) (bs : List Byte) (h : k < bs.length) :
    (m.writeBytes a bs).read (a + k) = some bs[k] := by
  induction bs generalizing m a k with
  | nil => simp at h
  | cons b bs ih =>
    cases k with
    | zero =>
      rw [Memory.writeBytes, read_writeBytes_outside _ _ _ _ (by omega)]
      exact read_write_same m a b
    | succ k =>
      have := ih (m.write a b) (a + 1) k (by simpa using h)
      rw [Memory.writeBytes, show a + (k + 1) = a + 1 + k by omega, this]
      rfl

/-- A range reads as `bs` exactly when every index of it holds `bs`'s byte. -/
theorem readRange_eq_some (m : Memory) (a n : Nat) (bs : List Byte) :
    m.readRange a n = some bs ↔ bs.length = n ∧ ∀ k (h : k < bs.length), m.read (a + k) = some bs[k] := by
  induction n generalizing a bs with
  | zero =>
    constructor
    · rintro h
      cases h
      simp
    · rintro ⟨h, -⟩
      rw [List.length_eq_zero_iff.mp h]
      rfl
  | succ n ih =>
    cases bs with
    | nil =>
      simp only [Memory.readRange]
      split <;> simp
    | cons b bs =>
      have split_head : m.readRange a (n + 1) = some (b :: bs) ↔
          m.read a = some b ∧ m.readRange (a + 1) n = some bs := by
        simp only [Memory.readRange]
        split
        · rename_i h1 h2
          simp [h1, h2]
        · rename_i h1
          constructor
          · simp
          · rintro ⟨h, h'⟩
            exact absurd h' (h1 _ _ h)
      rw [split_head, ih]
      constructor
      · rintro ⟨h0, hl, hk⟩
        refine ⟨by simp [hl], fun k hlt => ?_⟩
        cases k with
        | zero => exact h0
        | succ k =>
          have := hk k (by simpa using hlt)
          rw [show a + (k + 1) = a + 1 + k by omega, this]
          rfl
      · rintro ⟨hl, hk⟩
        refine ⟨hk 0 (by simp), by simpa using hl, fun k hlt => ?_⟩
        have := hk (k + 1) (by simpa using hlt)
        rw [show a + 1 + k = a + (k + 1) by omega, this]
        rfl

/-- Bytes appended behind a readable range make a longer readable range. -/
theorem readRange_append (m : Memory) (n : Nat) (o bs : List Byte) (h : m.readRange 0 n = some o) :
    (m.writeBytes n bs).readRange 0 (n + bs.length) = some (o ++ bs) := by
  obtain ⟨hl, hk⟩ := (readRange_eq_some _ _ _ _).mp h
  refine (readRange_eq_some _ _ _ _).mpr ⟨by simp [hl], fun k hlt => ?_⟩
  rw [Nat.zero_add]
  by_cases hko : k < o.length
  · rw [read_writeBytes_outside _ _ _ _ (by omega), List.getElem_append_left hko]
    simpa using hk k hko
  · have hin : k - n < bs.length := by simp at hlt; omega
    have := read_writeBytes_inside m n (k - n) bs hin
    rw [show n + (k - n) = k by omega] at this
    rw [this, List.getElem_append_right (by omega)]
    simp [hl]

theorem read_cellsFrom (a k : Nat) (bs : List Byte) (h : k < bs.length) :
    (Memory.cellsFrom a bs).read (a + k) = some bs[k] := by
  induction bs generalizing a k with
  | nil => simp at h
  | cons b bs ih =>
    cases k with
    | zero => simp [Memory.cellsFrom, Memory.read]
    | succ k =>
      have := ih (a + 1) k (by simpa using h)
      rw [Memory.cellsFrom, Memory.read, if_neg (by omega), show a + (k + 1) = a + 1 + k by omega, this]
      rfl

/-- Reading consecutive cells, in range or behind them. -/
theorem read_cellsFrom_getElem? (bs : List Byte) (k a : Nat) (h : k ≤ a) :
    (Memory.cellsFrom k bs).read a = bs[a - k]? := by
  induction bs generalizing k with
  | nil => rfl
  | cons b bs ih =>
    simp only [Memory.cellsFrom, Memory.read]
    split
    · subst a; simp
    · rw [ih _ (by omega), show a - k = (a - (k + 1)) + 1 by omega, List.getElem?_cons_succ]

/-- A buffer handed over reads as its bytes, and as nothing behind them. -/
theorem read_ofBytes (bs : List Byte) (a : Nat) : (Memory.ofBytes bs).read a = bs[a]? :=
  read_cellsFrom_getElem? bs 0 a (Nat.zero_le a)

/-- A buffer handed over whole reads as its bytes. -/
theorem readRange_ofBytes (bs : List Byte) : (Memory.ofBytes bs).readRange 0 bs.length = some bs :=
  (readRange_eq_some _ _ _ _).mpr ⟨rfl, fun k h => read_cellsFrom 0 k bs h⟩

/-- A write at the next free index keeps a buffer dense from 0. -/
theorem write_dense (m : Memory) (n : Nat) (b : Byte) (h : m.map Prod.fst = List.range n) :
    (m.write n b).map Prod.fst = List.range (n + 1) := by
  have append : ∀ (m : Memory), (∀ y ∈ m.map Prod.fst, y < n) → (m.write n b) = m ++ [(n, b)] := by
    intro m
    induction m with
    | nil => simp [Memory.write]
    | cons c m ih =>
      obtain ⟨a', b'⟩ := c
      intro hy
      have ha : a' < n := hy a' (by simp)
      rw [Memory.write, if_neg (by omega), if_neg (by omega), ih fun y hm => hy y (by simp_all)]
      rfl
  rw [append m (by simp [h]), List.map_append, h, List.range_succ]
  rfl

theorem writeBytes_dense (m : Memory) (n : Nat) (bs : List Byte) (h : m.map Prod.fst = List.range n) :
    (m.writeBytes n bs).map Prod.fst = List.range (n + bs.length) := by
  induction bs generalizing m n with
  | nil => exact h
  | cons b bs ih =>
    rw [Memory.writeBytes, ih _ _ (write_dense m n b h), List.length_cons]
    congr 1
    omega

end Sys2Proof.Machine
end

