-- ==== Sys2Proof/Laws/Ops.lean ====
section
/-! SUPPORT. One lemma for each shared operation that says once everything it can do. Later proofs cite these and do not unfold
the operation. -/

namespace Sys2Proof.Machine

section outcomes
variable {α β : Type}

@[simp] theorem andThen_next (a : α) (f : α → Host.Outcome β Fault Refusal) : andThen (.next a) f = f a := rfl

@[simp] theorem andThen_fault (r : Fault) (f : α → Host.Outcome β Fault Refusal) : andThen (.fault r) f = .fault r := rfl

@[simp] theorem andThen_refused (r : Refusal) (f : α → Host.Outcome β Fault Refusal) :
    andThen (.refused r) f = .refused r := rfl

theorem andThen_eq_next (o : Host.Outcome α Fault Refusal) (f : α → Host.Outcome β Fault Refusal) (b : β) :
    andThen o f = .next b ↔ ∃ a, o = .next a ∧ f a = .next b := by
  cases o <;> simp

end outcomes

/-! ### Reading IN -/

theorem readIn_eq_next (idx : Nat) (s : State) (b : Byte) :
    readIn idx s = .next b ↔ idx < s.inLen ∧ s.inBuf.read idx = some b := by
  unfold readIn
  split
  · split <;> simp_all
  · simp_all

theorem readInRange_eq_next (idx n : Nat) (s : State) (bs : List Byte) :
    readInRange idx n s = .next bs ↔
      s.inBuf.readRange idx n = some bs ∧ (n = 0 ∨ idx + n ≤ s.inLen) := by
  induction n generalizing idx bs with
  | zero => simp [readInRange, Memory.readRange]
  | succ n ih =>
    simp only [readInRange, andThen_eq_next, readIn_eq_next, ih, Memory.readRange]
    constructor
    · rintro ⟨b, ⟨hlt, hb⟩, bs', ⟨hbs, hn⟩, h⟩
      cases h
      simp only [hb, hbs]
      exact ⟨trivial, by omega⟩
    · rintro ⟨h, hn⟩
      split at h
      · rename_i b bs' hb hbs
        cases h
        exact ⟨b, ⟨by omega, hb⟩, bs', ⟨hbs, by omega⟩, rfl⟩
      · simp at h

theorem readRange_length {m : Memory} {a n : Nat} {bs : List Byte} (h : m.readRange a n = some bs) :
    bs.length = n := ((readRange_eq_some m a n bs).mp h).1

/-- A readable input gives each of its bytes. -/
theorem read_of_input {s : State} {b : List Byte} (h : s.input = some b) {k : Nat} (hk : k < b.length) :
    s.inBuf.read k = some b[k] := by
  have := ((readRange_eq_some _ _ _ _).mp h).2 k hk
  simpa using this

theorem input_length {s : State} {b : List Byte} (h : s.input = some b) : b.length = s.inLen :=
  readRange_length h

theorem readIn_of_input {s : State} {b : List Byte} (h : s.input = some b) {k : Nat} (hk : k < b.length) :
    readIn k s = .next b[k] :=
  (readIn_eq_next _ _ _).mpr ⟨input_length h ▸ hk, read_of_input h hk⟩

/-- A readable input gives each of its slices. -/
theorem readRange_of_input {s : State} {b : List Byte} (h : s.input = some b) {k n : Nat} (hk : k + n ≤ b.length) :
    s.inBuf.readRange k n = some ((b.drop k).take n) := by
  refine (readRange_eq_some _ _ _ _).mpr ⟨by simp; omega, fun j hj => ?_⟩
  have hj' : j < n := by simp at hj; omega
  rw [read_of_input h (by omega)]
  simp

/-! ### Accesses by address -/

/-- Running an action does not move what stands at an address. -/
@[simp] theorem locate_setScript (s : State) (as : List HostAction) (addr : Nat) :
    (s.setScript as).locate addr = s.locate addr := rfl

@[simp] theorem placeAt_nil (addr : Nat) : placeAt [] addr = none := rfl

/-- The earlier entry of the map decides; only where it puts nothing does the rest count. -/
theorem placeAt_cons (w : Window) (ws : List Window) (addr : Nat) :
    placeAt (w :: ws) addr = (w.place addr).or (placeAt ws addr) := rfl

@[simp] theorem place_register (addr : Nat) (r : Reg) : (Window.register addr r).place addr = some (.register r) := by
  simp [Window.place]

/-- The window of IN names exactly its indices below its size. -/
theorem place_input_eq (base size addr : Nat) (p : Place) :
    (Window.input base size).place addr = some p ↔ ∃ idx < size, addr = base + idx ∧ p = .inByte idx := by
  simp only [Window.place]
  split
  · exact ⟨fun h => ⟨addr - base, by omega, by omega, by simpa using h.symm⟩,
      fun ⟨idx, _, ha, hp⟩ => by rw [hp, ha, Nat.add_sub_cancel_left]⟩
  · exact ⟨fun h => by simp at h, fun ⟨idx, _, _, _⟩ => by omega⟩

/-- The window of OUT names exactly its indices below its size. -/
theorem place_output_eq (base size addr : Nat) (p : Place) :
    (Window.output base size).place addr = some p ↔ ∃ idx < size, addr = base + idx ∧ p = .outByte idx := by
  simp only [Window.place]
  split
  · exact ⟨fun h => ⟨addr - base, by omega, by omega, by simpa using h.symm⟩,
      fun ⟨idx, _, ha, hp⟩ => by rw [hp, ha, Nat.add_sub_cancel_left]⟩
  · exact ⟨fun h => by simp at h, fun ⟨idx, _, _, _⟩ => by omega⟩

/-- Everything a read by address can be. -/
theorem hostReadAt_cases (addr : Nat) (s t : State) (h : hostReadAt addr s = .next t) :
    (∃ r, s.locate addr = some (.register r) ∧ hostReadReg r s = .next t) ∨
    (∃ idx, s.locate addr = some (.outByte idx) ∧ hostReadOut idx s = .next t) := by
  unfold hostReadAt at h
  split at h
  · simp at h
  · exact .inl ⟨_, ‹_›, h⟩
  · simp at h
  · exact .inr ⟨_, ‹_›, h⟩

/-- Everything a write by address can be. -/
theorem hostWriteAt_cases (addr v : Nat) (s t : State) (h : hostWriteAt addr v s = .next t) :
    (∃ r, s.locate addr = some (.register r) ∧ writeRegister r v s = .next t) ∨
    (∃ idx, s.locate addr = some (.inByte idx) ∧ v < 256 ∧ hostWriteIn idx (BitVec.ofNat 8 v) s = .next t) := by
  unfold hostWriteAt at h
  split at h
  · simp at h
  · exact .inl ⟨_, ‹_›, h⟩
  · split at h
    · exact .inr ⟨_, ‹_›, ‹_›, h⟩
    · simp at h
  · simp at h

/-! ### Appending to OUT -/

theorem appendOut_eq_next (bs : List Byte) (s t : State) :
    appendOut bs s = .next t ↔ s.hasRoom bs.length = true ∧ t = s.pushOut bs := by
  unfold appendOut
  split
  · rename_i hr
    exact ⟨fun h => ⟨hr, by simpa using h.symm⟩, fun h => by rw [h.2]⟩
  · rename_i hr
    exact ⟨fun h => by simp at h, fun h => absurd h.1 hr⟩

theorem hasRoom_iff (s : State) (n : Nat) : s.hasRoom n = true ↔ ∀ c, s.outCap = some c → s.outIdx + n ≤ c := by
  unfold State.hasRoom
  split <;> simp_all

theorem hasRoom_of_fits {s : State} {n k : Nat} (h : s.fitsOut n) (hk : s.outIdx + k ≤ n) : s.hasRoom k = true :=
  (hasRoom_iff s k).mpr fun c hc => le_trans hk (h c hc)

theorem output_pushOut {s : State} {o : List Byte} (h : s.output = some o) (bs : List Byte) :
    (s.pushOut bs).output = some (o ++ bs) := by
  simp only [State.output, pushOut_outBuf, pushOut_outIdx]
  exact readRange_append _ _ _ _ h

theorem output_length {s : State} {o : List Byte} (h : s.output = some o) : o.length = s.outIdx := readRange_length h

@[simp] theorem output_of_empty {s : State} (h : s.outIdx = 0) : s.output = some [] := by
  simp [State.output, h, Memory.readRange]

/-! ### Exceptions and starts -/

theorem raiseCorruptFrame_eq (c : CorruptFrame) (s : State) :
    raiseCorruptFrame c s = .next (s.discardOut.setDoneErr c) := rfl

/-- Everything a start command can do. -/
theorem launch_cases (op : Op) (body : State → Host.Outcome State Fault Refusal) (s t : State)
    (h : launch op body s = .next t) :
    (s.phase = .busy ∧ t = s) ∨ (s.phase ≠ .busy ∧ s.tooLong = false ∧ body (s.startOperation op) = .next t) := by
  unfold launch at h
  split at h
  · exact .inl ⟨‹_›, by simpa using h.symm⟩
  · split at h
    · simp at h
    · exact .inr ⟨‹_›, by simp_all, h⟩

theorem launch_of_ready (op : Op) (body : State → Host.Outcome State Fault Refusal) {s : State}
    (hp : s.phase ≠ .busy) (hl : s.tooLong = false) : launch op body s = body (s.startOperation op) := by
  simp [launch, hp, hl]

/-- Everything the start of a DECODE can do. -/
theorem beginDecode_cases (s t : State) (h : beginDecode s = .next t) :
    (s.inLen = 0 ∧ t = s.discardOut.setDoneErr .missingTerminalDelimiter) ∨
    (∃ v, 0 < s.inLen ∧ s.inBuf.read (s.inLen - 1) = some v ∧ v ≠ s.cfgDelim ∧
      t = s.discardOut.setDoneErr .missingTerminalDelimiter) ∨
    (0 < s.inLen ∧ s.inBuf.read (s.inLen - 1) = some s.cfgDelim ∧ t = s.startDecoder) := by
  unfold beginDecode at h
  split at h
  · exact .inl ⟨‹_›, by simpa [raiseCorruptFrame_eq] using h.symm⟩
  · rename_i hpos
    obtain ⟨v, hv, h⟩ := (andThen_eq_next _ _ _).mp h
    obtain ⟨-, hv⟩ := (readIn_eq_next _ _ _).mp hv
    split at h
    · rename_i heq
      exact .inr (.inr ⟨Nat.pos_of_ne_zero hpos, heq ▸ hv, by simpa using h.symm⟩)
    · exact .inr (.inl ⟨v, Nat.pos_of_ne_zero hpos, hv, ‹_›, by simpa [raiseCorruptFrame_eq] using h.symm⟩)

/-! ### Groups -/

/-- Everything a packed group can do: raise, or append its data bytes and `sep` and advance. -/
theorem copyGroup_cases (L : Byte) (sep : List Byte) (s t : State) (h : copyGroup L sep s = .next t) :
    (s.last < s.pos + L.toNat ∧ t = s.discardOut.setDoneErr .invalidChunkLength) ∨
    (∃ d, s.pos + L.toNat ≤ s.last ∧ s.inBuf.readRange (s.pos + 1) (L.toNat - 1) = some d ∧
      s.hasRoom (d ++ sep).length = true ∧ t = (s.pushOut (d ++ sep)).advance L) := by
  unfold copyGroup State.nextPos at h
  split at h
  · exact .inl ⟨‹_›, by simpa [raiseCorruptFrame_eq] using h.symm⟩
  · obtain ⟨d, hd, h⟩ := (andThen_eq_next _ _ _).mp h
    obtain ⟨u, hu, h⟩ := (andThen_eq_next _ _ _).mp h
    obtain ⟨hroom, rfl⟩ := (appendOut_eq_next _ _ _).mp hu
    obtain ⟨hd, -⟩ := (readInRange_eq_next _ _ _ _).mp hd
    exact .inr ⟨d, by omega, hd, hroom, by simpa using h.symm⟩

theorem copyGroup_raises (L : Byte) (sep : List Byte) {s : State} (h : s.last < s.pos + L.toNat) :
    copyGroup L sep s = .next (s.discardOut.setDoneErr .invalidChunkLength) := by
  simp [copyGroup, State.nextPos, h, raiseCorruptFrame_eq]

theorem copyGroup_copies (L : Byte) {sep d : List Byte} {s : State} (hb : s.pos + L.toNat ≤ s.last)
    (hl : s.last < s.inLen) (hd : s.inBuf.readRange (s.pos + 1) (L.toNat - 1) = some d)
    (hr : s.hasRoom (d ++ sep).length = true) :
    copyGroup L sep s = .next ((s.pushOut (d ++ sep)).advance L) := by
  have hg : groupData L s = .next d := (readInRange_eq_next _ _ _ _).mpr ⟨hd, by simp only [dataCount]; omega⟩
  have ha : appendOut (d ++ sep) s = .next (s.pushOut (d ++ sep)) := (appendOut_eq_next _ _ _).mpr ⟨hr, rfl⟩
  rw [copyGroup, State.nextPos, if_neg (by omega), hg, andThen_next, ha, andThen_next]

/-! ### The encoder -/

theorem closeRun_eq_next (s t : State) :
    closeRun s = .next t ↔
      s.hasRoom (closeBytes s.chunkTail s.acc).length = true ∧
        t = (s.pushOut (closeBytes s.chunkTail s.acc)).setAcc [] := by
  simp only [closeRun, andThen_eq_next, appendOut_eq_next]
  constructor
  · rintro ⟨u, ⟨hr, rfl⟩, h⟩
    exact ⟨hr, by simpa using h.symm⟩
  · rintro ⟨hr, rfl⟩
    exact ⟨_, ⟨hr, rfl⟩, rfl⟩

/-- Everything a data byte can do. -/
theorem accumulate_cases (x : Byte) (s t : State) (h : accumulate x s = .next t) :
    (s.acc.length = Config.maxChunk ∧ s.hasRoom (packChunk s.acc).length = true ∧
      t = (s.pushOut (packChunk s.acc)).setAcc [x]) ∨
    (s.acc.length ≠ Config.maxChunk ∧ t = s.setAcc (s.acc ++ [x])) := by
  unfold accumulate at h
  split at h
  · obtain ⟨u, hu, h⟩ := (andThen_eq_next _ _ _).mp h
    obtain ⟨hr, rfl⟩ := (appendOut_eq_next _ _ _).mp hu
    exact .inl ⟨‹_›, hr, by simpa using h.symm⟩
  · exact .inr ⟨‹_›, by simpa using h.symm⟩

/-- Everything a step of the encoder can do. -/
theorem encoderStep_cases (s t : State) (h : encoderStep s = .next t) :
    (∃ x u, s.i < s.inLen ∧ s.inBuf.read s.i = some x ∧
      (if x = s.cfgDelim then closeRun s else accumulate x s) = .next u ∧ t = u.nextByte) ∨
    (∃ u, s.i = s.inLen ∧ closeRun s = .next u ∧ u.hasRoom 1 = true ∧ t = (u.pushOut [u.cfgDelim]).setDoneOk) := by
  unfold encoderStep at h
  split at h
  · obtain ⟨x, hx, h⟩ := (andThen_eq_next _ _ _).mp h
    obtain ⟨u, hu, h⟩ := (andThen_eq_next _ _ _).mp h
    obtain ⟨hlt, hx⟩ := (readIn_eq_next _ _ _).mp hx
    exact .inl ⟨x, u, hlt, hx, hu, by simpa using h.symm⟩
  · split at h
    · obtain ⟨u, hu, h⟩ := (andThen_eq_next _ _ _).mp h
      obtain ⟨v, hv, h⟩ := (andThen_eq_next _ _ _).mp h
      obtain ⟨hr, rfl⟩ := (appendOut_eq_next _ _ _).mp hv
      exact .inr ⟨u, ‹_›, hu, by simpa using hr, by simpa using h.symm⟩
    · simp at h

/-! ### The instructions -/

theorem execGrp_cases (L : Byte) (s t : State) (h : execGrp L s = .next t) :
    (Instr.grp L).wf = true ∧ s.atGroup = true ∧ copyGroup L (reinserted L s) s = .next t := by
  unfold execGrp at h
  split at h
  · split at h
    · exact ⟨‹_›, ‹_›, h⟩
    · simp at h
  · simp at h

theorem execGrpf_cases (s t : State) (h : execGrpf s = .next t) :
    s.atGroup = true ∧ copyGroup Config.full [] s = .next t := by
  unfold execGrpf at h
  split at h
  · exact ⟨‹_›, h⟩
  · simp at h

theorem execRsv0_cases (s t : State) (h : execRsv0 s = .next t) :
    s.atGroup = true ∧ t = s.discardOut.setDoneErr .invalidChunkLength := by
  unfold execRsv0 at h
  split at h
  · exact ⟨‹_›, by simpa [raiseCorruptFrame_eq] using h.symm⟩
  · simp at h

theorem execTerm_cases (s t : State) (h : execTerm s = .next t) : s.atTerm = true ∧ t = s.setDoneOk := by
  unfold execTerm at h
  split at h
  · exact ⟨‹_›, by simpa using h.symm⟩
  · simp at h

theorem atGroup_iff (s : State) : s.atGroup = true ↔ s.phase = .busy ∧ s.cmdOp = .decode ∧ s.pos < s.last := by
  simp [State.atGroup, State.decoding, and_assoc]

theorem atTerm_iff (s : State) : s.atTerm = true ↔ s.phase = .busy ∧ s.cmdOp = .decode ∧ s.pos = s.last := by
  simp [State.atTerm, State.decoding, and_assoc]

/-! ### The engine's step -/

/-- Everything the fetch can give. -/
theorem fetch_cases (s : State) (i : Instr) (h : fetch s = .next i) :
    (∃ L, s.pos < s.last ∧ s.pos < s.inLen ∧ s.inBuf.read s.pos = some L ∧ i = decodeGroupByte L) ∨
    (s.pos = s.last ∧ i = .term) := by
  unfold fetch at h
  split at h
  · obtain ⟨L, hL, h⟩ := (andThen_eq_next _ _ _).mp h
    obtain ⟨hlt, hL⟩ := (readIn_eq_next _ _ _).mp hL
    exact .inl ⟨L, ‹_›, hlt, hL, by simpa using h.symm⟩
  · split at h
    · exact .inr ⟨‹_›, by simpa using h.symm⟩
    · simp at h

/-- Everything a step of the engine can do: nothing when not BUSY, a step of the encoder, or the fetched instruction. -/
theorem engineStep_cases (s t : State) (h : engineStep s = .next t) :
    (s.phase ≠ .busy ∧ t = s) ∨ (s.phase = .busy ∧ s.cmdOp = .encode ∧ encoderStep s = .next t) ∨
    (∃ i, s.phase = .busy ∧ s.cmdOp = .decode ∧ fetch s = .next i ∧ exec i s = .next t) := by
  unfold engineStep at h
  split at h
  · split at h
    · exact .inr (.inl ⟨‹_›, ‹_›, h⟩)
    · obtain ⟨i, hi, h⟩ := (andThen_eq_next _ _ _).mp h
      exact .inr (.inr ⟨i, ‹_›, ‹_›, hi, h⟩)
  · exact .inl ⟨‹_›, by simpa using h.symm⟩

/-! ### The engine does not look at the host's pending actions -/

@[simp] theorem setScript_setScript (s : State) (as bs : List HostAction) :
    (s.setScript as).setScript bs = s.setScript bs := rfl

theorem andThen_assoc {α β γ : Type} (o : Host.Outcome α Fault Refusal) (f : α → Host.Outcome β Fault Refusal)
    (g : β → Host.Outcome γ Fault Refusal) : andThen (andThen o f) g = andThen o fun a => andThen (f a) g := by
  cases o <;> rfl

theorem readIn_setScript (idx : Nat) (s : State) (as : List HostAction) : readIn idx (s.setScript as) = readIn idx s := rfl

theorem readInRange_setScript (idx n : Nat) (s : State) (as : List HostAction) :
    readInRange idx n (s.setScript as) = readInRange idx n s := by
  induction n generalizing idx with
  | zero => rfl
  | succ n ih => simp only [readInRange, readIn_setScript, ih]

theorem appendOut_setScript (bs : List Byte) (s : State) (as : List HostAction) :
    appendOut bs (s.setScript as) = andThen (appendOut bs s) fun t => .next (t.setScript as) := by
  show (if s.hasRoom bs.length then _ else _) = _
  rw [appendOut]
  split <;> rfl

theorem closeRun_setScript (s : State) (as : List HostAction) :
    closeRun (s.setScript as) = andThen (closeRun s) fun t => .next (t.setScript as) := by
  simp only [closeRun, appendOut_setScript, andThen_assoc, setScript_chunkTail, setScript_acc, andThen_next]
  rfl

theorem accumulate_setScript (x : Byte) (s : State) (as : List HostAction) :
    accumulate x (s.setScript as) = andThen (accumulate x s) fun t => .next (t.setScript as) := by
  simp only [accumulate, setScript_acc, appendOut_setScript]
  split
  · simp only [andThen_assoc, andThen_next]; rfl
  · rfl

theorem encoderStep_setScript (s : State) (as : List HostAction) :
    encoderStep (s.setScript as) = andThen (encoderStep s) fun t => .next (t.setScript as) := by
  have finish : finishEncode (s.setScript as) = andThen (finishEncode s) fun t => .next (t.setScript as) := by
    simp only [finishEncode, closeRun_setScript, andThen_assoc, andThen_next, appendOut_setScript]
    rfl
  simp only [encoderStep, setScript_i, setScript_inLen, setScript_cfgDelim, readIn_setScript, closeRun_setScript,
    accumulate_setScript, finish]
  split
  · cases readIn s.i s with
    | next x =>
      simp only [andThen_next]
      split <;> simp only [andThen_assoc, andThen_next] <;> rfl
    | fault r => rfl
    | refused r => rfl
  · split <;> rfl

theorem copyGroup_setScript (L : Byte) (sep : List Byte) (s : State) (as : List HostAction) :
    copyGroup L sep (s.setScript as) = andThen (copyGroup L sep s) fun t => .next (t.setScript as) := by
  show (if s.last < s.nextPos L then _ else _) = _
  rw [copyGroup]
  split
  · rfl
  · simp only [groupData, readInRange_setScript, appendOut_setScript, andThen_assoc, andThen_next, setScript_pos]
    rfl

/-- An instruction of a frame, which is what a DECODE fetches, does not look at the host's list. -/
theorem exec_frame_setScript (i : Instr) (hi : isHostCommand i = false) (s : State) (as : List HostAction) :
    exec i (s.setScript as) = andThen (exec i s) fun t => .next (t.setScript as) := by
  cases i with
  | grp L =>
    show (if _ then (if s.atGroup then copyGroup L (reinserted L s) (s.setScript as) else _) else _) = _
    simp only [exec, execGrp, copyGroup_setScript]
    repeat' split
    all_goals rfl
  | grpf =>
    show (if s.atGroup then copyGroup Config.full [] (s.setScript as) else _) = _
    simp only [exec, execGrpf, copyGroup_setScript]
    split <;> rfl
  | rsv0 =>
    show (if s.atGroup then _ else _) = _
    simp only [exec, execRsv0]
    split <;> rfl
  | term =>
    show (if s.atTerm then _ else _) = _
    simp only [exec, execTerm]
    split <;> rfl
  | encode => simp [isHostCommand] at hi
  | decode => simp [isHostCommand] at hi
  | split b D => simp [isHostCommand] at hi
  | chunk r => simp [isHostCommand] at hi
  | pack c => simp [isHostCommand] at hi
  | scan D => simp [isHostCommand] at hi

/-- A fetch gives an instruction of a frame only. -/
theorem fetch_frame (s : State) (i : Instr) (h : fetch s = .next i) : isHostCommand i = false := by
  obtain ⟨L, _, _, _, rfl⟩ | ⟨_, rfl⟩ := fetch_cases s i h
  · simp only [decodeGroupByte]
    repeat' split
    all_goals rfl
  · rfl

/-- The engine's step neither looks at the host's pending actions nor changes them. -/
theorem engineStep_setScript (s : State) (as : List HostAction) :
    engineStep (s.setScript as) = andThen (engineStep s) fun t => .next (t.setScript as) := by
  have hf : fetch (s.setScript as) = fetch s := rfl
  simp only [engineStep, setScript_phase, setScript_cmdOp, encoderStep_setScript, hf]
  split
  · split
    · rfl
    · cases h : fetch s with
      | next i => simp only [andThen_next, exec_frame_setScript i (fetch_frame s i h)]
      | fault r => rfl
      | refused r => rfl
  · rfl

theorem step_of_idle_script {s : State} (h : s.script = []) : step s = engineStep s := by
  simp [step, runNext, h]

theorem step_of_action {s : State} {a : HostAction} {rest : List HostAction} (h : s.script = a :: rest) :
    step s = hostAct a (s.setScript rest) := by
  simp [step, runNext, h]

@[simp] theorem runSteps_zero (s : State) : runSteps 0 s = .next s := rfl

theorem runSteps_succ (k : Nat) (s : State) : runSteps (k + 1) s = andThen (step s) (runSteps k) := by
  have core_step : Sys2Proof.core.step s = step s := rfl
  simp only [runSteps, Host.Core.run]
  rw [core_step]
  cases step s <;> rfl

end Sys2Proof.Machine
end

