-- ==== Sys2Proof/Laws/Units.lean ====
section
/-! SUPPORT. The small laws of the scanner, the accumulator, the packer and the decoder's loop, in the recursive form that
inductions use: the definitions follow the spec's formulas, these lemmas unfold them once. -/

namespace Sys2Proof.Machine

/-! ### SPLIT -/

@[simp] theorem splitRuns_nil (D : Byte) : splitRuns D [] = [[]] := rfl

@[simp] theorem splitRuns_delim (D : Byte) (xs : List Byte) : splitRuns D (D :: xs) = [] :: splitRuns D xs := by
  simp [splitRuns]

theorem splitRuns_ne_nil (D : Byte) (b : List Byte) : splitRuns D b ≠ [] := by
  cases b with
  | nil => simp
  | cons x xs =>
    simp only [splitRuns]
    split
    · simp
    · split <;> simp

/-- A byte that is not the delimiter joins the first run. -/
theorem splitRuns_data {D x : Byte} (h : x ≠ D) {xs r : List Byte} {rs : List (List Byte)}
    (hr : splitRuns D xs = r :: rs) : splitRuns D (x :: xs) = (x :: r) :: rs := by
  simp [splitRuns, h, hr]

/-- A run at the front of a buffer: the bytes before the first delimiter. -/
theorem splitRuns_run {D : Byte} {p : List Byte} (h : D ∉ p) (xs : List Byte) :
    splitRuns D (p ++ D :: xs) = p :: splitRuns D xs := by
  induction p with
  | nil => simp
  | cons x p ih =>
    simp only [List.mem_cons, not_or] at h
    exact splitRuns_data (Ne.symm h.1) (ih h.2)

/-- A buffer without the delimiter is one run. -/
theorem splitRuns_single {D : Byte} {p : List Byte} (h : D ∉ p) : splitRuns D p = [p] := by
  induction p with
  | nil => simp
  | cons x p ih =>
    simp only [List.mem_cons, not_or] at h
    exact splitRuns_data (Ne.symm h.1) (ih h.2)

/-! ### CHUNK -/

theorem chunkRun_nil (tail : ChunkTail) : chunkRun tail [] = [[]] := by cases tail <;> rfl

/-- A run of fewer than 254 bytes is one chunk, under either setting. -/
theorem chunkRun_short (tail : ChunkTail) {r : List Byte} (h : r.length < Config.maxChunk) :
    chunkRun tail r = [r] := by
  have count : chunkCount tail r.length = 1 := by
    simp only [Config.maxChunk] at h
    cases tail <;> simp only [chunkCount, ceilDiv, Config.maxChunk] <;> omega
  simp [chunkRun, count, List.range_one, List.take_of_length_le (le_of_lt h)]

/-- A run of 254 bytes is one full chunk; `pad` adds an empty one. -/
theorem chunkRun_full (tail : ChunkTail) {r : List Byte} (h : r.length = Config.maxChunk) :
    chunkRun tail r = r :: (if tail = .pad then [[]] else []) := by
  cases tail
  · have count : chunkCount .plain r.length = 1 := by rw [h]; rfl
    simp [chunkRun, count, List.range_one, List.take_of_length_le (le_of_eq h)]
  · have count : chunkCount .pad r.length = 2 := by rw [h]; rfl
    simp [chunkRun, count, List.range_succ, List.take_of_length_le (le_of_eq h), List.drop_of_length_le (le_of_eq h)]

/-- A longer run begins with a full chunk, and goes on as the run behind it. -/
theorem chunkRun_long (tail : ChunkTail) {r : List Byte} (h : Config.maxChunk < r.length) :
    chunkRun tail r = r.take Config.maxChunk :: chunkRun tail (r.drop Config.maxChunk) := by
  have count : chunkCount tail r.length = chunkCount tail (r.drop Config.maxChunk).length + 1 := by
    simp only [Config.maxChunk, List.length_drop] at h ⊢
    cases tail <;> simp only [chunkCount, ceilDiv, Config.maxChunk] <;> omega
  simp only [chunkRun, count, List.range_succ_eq_map, List.map_cons, List.map_map]
  congr 1
  refine List.map_congr_left fun t _ => ?_
  simp only [Function.comp_apply, List.drop_drop]
  rw [Nat.mul_succ, Nat.add_comm]

/-! ### PACK -/

theorem packChunk_head_toNat {c : List Byte} (h : c.length ≤ Config.maxChunk) :
    (BitVec.ofNat 8 (c.length + 1)).toNat = c.length + 1 := by
  simp only [Config.maxChunk] at h
  rw [BitVec.toNat_ofNat]
  omega

@[simp] theorem packChunk_length (c : List Byte) : (packChunk c).length = c.length + 1 := rfl

/-! ### The decoder's loop -/

theorem decodeLoop_end (D : Byte) (f : List Byte) (last n pos : Nat) (out : List Byte) (h : last ≤ pos) :
    decodeLoop D f last n pos out = .ok out := by
  cases n with
  | zero => rfl
  | succ n => simp [decodeLoop, Nat.not_lt.mpr h]

/-- One group of the loop: its length byte `L` at `pos`, legal and inside the frame. -/
theorem decodeLoop_group (D : Byte) (f : List Byte) (last n pos : Nat) (out : List Byte) (L : Byte) (h : pos < last)
    (hL : f.getD pos 0 = L) (h0 : L.toNat ≠ 0) (hb : pos + L.toNat ≤ last) :
    decodeLoop D f last (n + 1) pos out =
      decodeLoop D f last n (pos + L.toNat)
        (out ++ (f.drop (pos + 1)).take (L.toNat - 1) ++ if pos + L.toNat < last ∧ L.toNat < 255 then [D] else []) := by
  simp only [decodeLoop, h, if_true, hL, h0, if_false, Nat.not_lt.mpr hb]

/-- A length byte that is 0 or runs past the frame ends the loop with cause 2. -/
theorem decodeLoop_error (D : Byte) (f : List Byte) (last n pos : Nat) (out : List Byte) (L : Byte) (h : pos < last)
    (hL : f.getD pos 0 = L) (hb : L.toNat = 0 ∨ last < pos + L.toNat) :
    decodeLoop D f last (n + 1) pos out = .err .invalidChunkLength := by
  simp only [decodeLoop, h, if_true, hL]
  rcases hb with hb | hb <;> simp [hb]

/-! ### SCAN -/

/-- The scan cuts behind the first delimiter. -/
theorem scanBytes_frame {D : Byte} {p : List Byte} (h : D ∉ p) (rest : List Byte) :
    scanBytes D (p ++ D :: rest) = .frame (p ++ [D]) rest := by
  induction p with
  | nil => simp [scanBytes]
  | cons x p ih =>
    simp only [List.mem_cons, not_or] at h
    simp [scanBytes, Ne.symm h.1, ih h.2]

/-- Without the delimiter there is no frame yet. -/
theorem scanBytes_none {D : Byte} {p : List Byte} (h : D ∉ p) : scanBytes D p = .noFrameYet := by
  induction p with
  | nil => rfl
  | cons x p ih =>
    simp only [List.mem_cons, not_or] at h
    simp [scanBytes, Ne.symm h.1, ih h.2]

end Sys2Proof.Machine
end

