-- ==== Sys2Proof/Laws/PerInstr.lean ====
section
/-! SUPPORT. Facts about every instruction as syntax, one lemma for each constructor. EncodingAgrees: where a well-formed
instruction has bytes in a frame, they decode to it at its place (a length byte with something behind it, TERM with nothing
behind it); where it has a CMD.OP value, that value decodes to it. -/

namespace Sys2Proof.Laws.EncodingAgrees

def Statement (i : Instr) : Prop :=
  i.wf = true →
    (∀ (D : Byte) (w rest : List Byte), encode D i = some w → (rest = [] ↔ i = .term) → decodeBytes (w ++ rest) = .ok i) ∧
      (∀ op, encodeCmd i = some op → decodeCmd op = i)

/-- A length byte with a byte behind it is dispatched on its value. -/
theorem decodeBytes_length_byte (L : Byte) {rest : List Byte} (h : rest ≠ []) :
    decodeBytes ([L] ++ rest) = .ok (decodeGroupByte L) := by
  cases rest with
  | nil => exact absurd rfl h
  | cons b bs => rfl

theorem grp (L : Byte) : Statement (.grp L) := by
  intro hw
  refine ⟨fun D w rest he hr => ?_, fun op h => by simp [encodeCmd] at h⟩
  have hL : 1 ≤ L.toNat ∧ L.toNat ≤ 254 := by simpa [Instr.wf] using hw
  have dispatch : decodeGroupByte L = .grp L := by
    have h0 : L ≠ 0 := by rintro rfl; simp at hL
    have h255 : L ≠ Config.full := by rintro rfl; simp [Config.full] at hL
    rw [decodeGroupByte, if_neg h0, if_neg h255]
  cases he
  rw [decodeBytes_length_byte L (by simpa using hr), dispatch]

theorem grpf : Statement .grpf := by
  refine fun _ => ⟨fun D w rest he hr => ?_, fun op h => by simp [encodeCmd] at h⟩
  cases he
  exact decodeBytes_length_byte Config.full (by simpa using hr)

theorem rsv0 : Statement .rsv0 := by
  refine fun _ => ⟨fun D w rest he hr => ?_, fun op h => by simp [encodeCmd] at h⟩
  cases he
  exact decodeBytes_length_byte 0 (by simpa using hr)

theorem term : Statement .term := by
  refine fun _ => ⟨fun D w rest he hr => ?_, fun op h => by simp [encodeCmd] at h⟩
  cases he
  rw [hr.mpr rfl]
  rfl

theorem encode : Statement .encode := by
  refine fun _ => ⟨fun D w rest he _ => by simp [Sys2Proof.encode] at he, fun op h => ?_⟩
  cases h
  rfl

theorem decode : Statement .decode := by
  refine fun _ => ⟨fun D w rest he _ => by simp [Sys2Proof.encode] at he, fun op h => ?_⟩
  cases h
  rfl

theorem split (b : List Byte) (D : Byte) : Statement (.split b D) :=
  fun _ => ⟨fun D w rest he _ => by simp [Sys2Proof.encode] at he, fun op h => by simp [encodeCmd] at h⟩

theorem chunk (r : List Byte) : Statement (.chunk r) :=
  fun _ => ⟨fun D w rest he _ => by simp [Sys2Proof.encode] at he, fun op h => by simp [encodeCmd] at h⟩

theorem pack (c : List Byte) : Statement (.pack c) :=
  fun _ => ⟨fun D w rest he _ => by simp [Sys2Proof.encode] at he, fun op h => by simp [encodeCmd] at h⟩

theorem scan (D : Byte) : Statement (.scan D) :=
  fun _ => ⟨fun D w rest he _ => by simp [Sys2Proof.encode] at he, fun op h => by simp [encodeCmd] at h⟩

end Sys2Proof.Laws.EncodingAgrees
end

