-- ==== Sys2Proof/Tests/Slice0.lean ====
section
/-! SUPPORT. The model's own tests. Expected results are the spec's: spec/95_test_vectors.md, the corner-case tables of the rules,
or a hand calculation from a rule named at the test. Then one witness for the hypotheses of each statement that has any. -/

namespace Sys2Proof.Tests
open Sys2Proof.Machine

/-! ### Small states -/

/-- The example frame of the spec. -/
abbrev frame1 : List Byte := [3, 11, 22, 2, 33, 0]

/-- Nothing in progress, `f` handed over as IN, delimiter `D`. -/
def loaded (D : Byte) (f : List Byte) : State :=
  { State.reset with cfgDelim := D, inBuf := Memory.ofBytes f, inLen := f.length }

/-- A DECODE of `f` in progress at `pos`. -/
def decodingAt (D : Byte) (f : List Byte) (pos : Nat) : State :=
  { loaded D f with phase := .busy, cmdOp := .decode, pos := pos, last := f.length - 1 }

/-- An ENCODE of `b` in progress at index `i` with `acc` accumulated. -/
def encodingAt (D : Byte) (b : List Byte) (i : Nat) (acc : List Byte) : State :=
  { loaded D b with phase := .busy, cmdOp := .encode, i := i, acc := acc }

/-- Something finished: DONE_OK with `o` in OUT. -/
def finished (o : List Byte) : State :=
  { State.reset with phase := .doneOk, outBuf := Memory.ofBytes o, outIdx := o.length, outLen := o.length }

/-- A failed DECODE. -/
def failed : State := { State.reset with phase := .doneErr, cause := some .invalidChunkLength, cmdOp := .decode }

/-- The next state, if there is one. -/
def nextOf (o : Host.Outcome State Fault Refusal) : Option State :=
  match o with
  | .next s => some s
  | .fault _ => none
  | .refused _ => none

/-- A platform that puts CFG.DELIM at 16, CMD.OP at 17, IN_LEN at 18, four bytes of IN at 32 and of OUT at 64, and the host's
actions. -/
def mapped (s : State) (as : List HostAction) : State :=
  { s with
    addrMap := [.register 16 .cfgDelim, .register 17 .cmdOp, .register 18 .inLen, .input 32 4, .output 64 4], script := as }

/-- What a test looks at. -/
structure Seen where
  phase  : Phase
  cause  : Option CorruptFrame
  outLen : Nat
  output : Option (List Byte)
  pos    : Nat
deriving DecidableEq

/-- PHASE, CAUSE, OUT_LEN, the bytes in OUT so far, `pos`. -/
def seen (o : Host.Outcome State Fault Refusal) : Option Seen :=
  (nextOf o).map (fun s => ⟨s.phase, s.cause, s.outLen, s.output, s.pos⟩)

/-- A next state with a phase a test has computed. -/
theorem next_with_phase {o : Host.Outcome State Fault Refusal} {p : Phase}
    (h : (nextOf o).map State.phase = some p) : ∃ t, o = .next t ∧ t.phase = p := by
  cases o with
  | next t => exact ⟨t, rfl, by simpa [nextOf] using h⟩
  | fault r => simp [nextOf] at h
  | refused r => simp [nextOf] at h

/-- What a test of the encoder looks at: the accumulator and OUT. -/
def seenEnc (o : Host.Outcome State Fault Refusal) : Option (Phase × List Byte × Option (List Byte)) :=
  (nextOf o).map (fun s => (s.phase, s.acc, s.output))

/-! ### WellFormed refuses each ill-formed term (R65, R100) -/

theorem test_wf_refuses_grp_zero : (Instr.grp 0).wf = false := by decide
theorem test_wf_refuses_grp_full : (Instr.grp 255).wf = false := by decide
theorem test_wf_refuses_long_chunk : (Instr.pack (List.replicate 255 7)).wf = false := by decide +kernel
theorem test_wf_accepts_ends :
    (Instr.grp 1).wf = true ∧ (Instr.grp 254).wf = true ∧ (Instr.pack (List.replicate 254 7)).wf = true := by decide +kernel

/-! ### Decoding, from words written out from the encodings (R60, R65, R67, R25) -/

/-- GRP, LLLLLLLL: 00000011, and the ends 00000001 and 11111110. -/
theorem test_decode_grp :
    decodeBytes [0b00000011, 11, 22, 0] = .ok (.grp 3) ∧ decodeBytes [0b00000001, 0] = .ok (.grp 1) ∧
      decodeBytes [0b11111110, 0] = .ok (.grp 254) ∧ decodeTableWord 8 0b00000011 = some (.grp 3) := by decide
/-- GRPF, 11111111. -/
theorem test_decode_grpf : decodeBytes [0b11111111, 1, 0] = .ok .grpf ∧ decodeTableWord 8 0b11111111 = some .grpf := by
  decide
/-- RSV0, 00000000. -/
theorem test_decode_rsv0 : decodeBytes [0b00000000, 5, 0] = .ok .rsv0 ∧ decodeTableWord 8 0b00000000 = some .rsv0 := by
  decide
/-- TERM, DDDDDDDD at the last index, whatever its value. -/
theorem test_decode_term : decodeBytes [0] = .ok .term ∧ decodeBytes [3] = .ok .term ∧ decodeBytes [255] = .ok .term := by
  decide
/-- No byte is no instruction. -/
theorem test_decode_nothing : decodeBytes [] = .error .endOfFrame ∧ decodeTableWord 0 0 = none := by decide
/-- CMD.OP: 0 = ENCODE, 1 = DECODE. -/
theorem test_decode_commands : decodeCmd 0 = .encode ∧ decodeCmd 1 = .decode := by decide
/-- SPLIT, CHUNK, PACK, SCAN and the commands have no pattern in a frame (R67). -/
theorem test_units_have_no_encoding :
    encode 0 (.split [] 0) = none ∧ encode 0 (.chunk []) = none ∧ encode 0 (.pack []) = none ∧
      encode 0 (.scan 0) = none ∧ encode 0 .encode = none ∧ encode 0 .decode = none := by decide
/-- The listing of R74: GRP 3: 11 22, GRP 2: 33, TERM 0. -/
theorem test_listing_of_R74 :
    disassemble 6 [3, 11, 22, 2, 33, 0] = some [⟨.grp 3, [11, 22]⟩, ⟨.grp 2, [33]⟩, ⟨.term, []⟩] := by decide

/-! ### Each instruction, one step -/

/-- P1, step 1: copy 11, 22; `pos` = 3; append 0. -/
theorem test_grp_reinserts :
    seen (exec (.grp 3) (decodingAt 0 [3, 11, 22, 2, 33, 0] 0)) = some ⟨.busy, none, 0, some [11, 22, 0], 3⟩ := by decide
/-- P3, step 2: `3+3 = 6 > 5`. -/
theorem test_grp_raises :
    seen (exec (.grp 3) (decodingAt 0 [3, 11, 22, 3, 33, 0] 3)) =
      some ⟨.doneErr, some .invalidChunkLength, 0, some [], 3⟩ := by decide
/-- R136: `[255] ++ x253 ++ [0]` is an error, 0 + 255 > 254. -/
theorem test_grpf_raises :
    (nextOf (exec .grpf (decodingAt 0 (255 :: List.replicate 253 1 ++ [0]) 0))).map State.cause =
      some (some .invalidChunkLength) := by decide +kernel
/-- 95_test_vectors.md 2.6: `[255]++U(254)++[2,7,0]`, no delimiter after GRPF: 254 bytes in OUT, `pos` = 255. -/
theorem test_grpf_reinserts_nothing :
    (nextOf (exec .grpf (decodingAt 0 (255 :: List.replicate 254 1 ++ [2, 7, 0]) 0))).map
      (fun s => (s.pos, s.outIdx, s.phase)) = some (255, 254, .busy) := by decide +kernel
/-- 2.6: `[0,5,0]` is an error. -/
theorem test_rsv0_raises :
    seen (exec .rsv0 (decodingAt 0 [0, 5, 0] 0)) = some ⟨.doneErr, some .invalidChunkLength, 0, some [], 0⟩ := by decide
/-- 2.6: `[0]` decodes to the empty buffer. -/
theorem test_term_ends : seen (exec .term (decodingAt 0 [0] 0)) = some ⟨.doneOk, none, 0, some [], 0⟩ := by decide
/-- S11: `decode([1,1])` misses its terminal delimiter. -/
theorem test_decode_missing_terminal :
    seen (exec .decode (loaded 0 [1, 1])) = some ⟨.doneErr, some .missingTerminalDelimiter, 0, some [], 0⟩ := by decide
/-- P1, start: `last` = 5, `pos` = 0. -/
theorem test_decode_starts :
    (nextOf (exec .decode (loaded 0 [3, 11, 22, 2, 33, 0]))).map (fun s => (s.phase, s.pos, s.last, s.cmdOp)) =
      some (.busy, 0, 5, .decode) := by decide
/-- R106 start: `i` and `acc` cleared, BUSY. -/
theorem test_encode_starts :
    (nextOf (exec .encode (finished [9, 9]))).map (fun s => (s.phase, s.i, s.acc, s.output, s.outLen)) =
      some (.busy, 0, [], some [], 0) := by decide
/-- R28: a start command while BUSY is refused and disturbs nothing. -/
theorem test_encode_while_busy :
    nextOf (exec .encode (decodingAt 0 [1, 0] 0)) = some (decodingAt 0 [1, 0] 0) := by decide
/-- 2.1: `[1,2,3,0,0,4]`. -/
theorem test_split :
    (nextOf (exec (.split [1, 2, 3, 0, 0, 4] 0) State.reset)).map State.unitOut =
      some (.runs [[1, 2, 3], [], [4]]) := by decide
/-- 2.1: the rows with an empty buffer, delimiters at the ends, and a non-zero delimiter. -/
theorem test_split_corners :
    splitRuns 0 [] = [[]] ∧ splitRuns 0 [0] = [[], []] ∧ splitRuns 0 [0, 5] = [[], [5]] ∧
      splitRuns 0 [5, 0] = [[5], []] ∧ splitRuns 3 [0, 3, 7] = [[0], [7]] ∧ splitRuns 7 [0, 0] = [[0, 0]] := by decide
/-- R91: `Chunk([]) = [[]]`, `Chunk([11,22]) = [[11,22]]`. -/
theorem test_chunk_small :
    (nextOf (exec (.chunk []) State.reset)).map State.unitOut = some (.chunks [[]]) ∧
      (nextOf (exec (.chunk [11, 22]) State.reset)).map State.unitOut = some (.chunks [[11, 22]]) := by decide
/-- 2.2: the lengths of the chunks of 254 and of 509 bytes. -/
theorem test_chunk_lengths :
    (chunkRun .plain (List.replicate 254 1)).map List.length = [254] ∧
      (chunkRun .pad (List.replicate 254 1)).map List.length = [254, 0] ∧
      (chunkRun .plain (List.replicate 509 1)).map List.length = [254, 254, 1] := by decide +kernel
/-- 2.3: `[11,22]` packs to `[3,11,22]`, the empty chunk to `[1]`. -/
theorem test_pack :
    (nextOf (exec (.pack [11, 22]) State.reset)).map State.unitOut = some (.group [3, 11, 22]) ∧
      (nextOf (exec (.pack []) State.reset)).map State.unitOut = some (.group [1]) := by decide
/-- R102: a chunk of 254 bytes packs with length byte 255. -/
theorem test_pack_full : packChunk (List.replicate 254 7) = 255 :: List.replicate 254 7 := by decide +kernel
/-- R158: the first frame, and the rest kept. -/
theorem test_scan_frame :
    (nextOf (exec (.scan 0) { State.reset with rx := [3, 11, 22, 2, 33, 0, 1, 1, 0, 5] })).map
      (fun s => (s.scanned, s.rx)) = some (.frame [3, 11, 22, 2, 33, 0] [1, 1, 0, 5], [1, 1, 0, 5]) := by decide
/-- R158: no frame yet, `[5]` kept. -/
theorem test_scan_none :
    (nextOf (exec (.scan 0) { State.reset with rx := [5] })).map (fun s => (s.scanned, s.rx)) =
      some (.noFrameYet, [5]) := by decide

/-! ### The encoder's steps and the two functions -/

/-- R112, step 3: a delimiter closes the run, prefix 3. -/
theorem test_encoder_closes_a_run :
    seenEnc (encoderStep (encodingAt 0 [11, 22, 0, 33] 2 [11, 22])) = some (.busy, [], some [3, 11, 22]) := by decide
/-- R112, step 5: the last run and the terminal delimiter. -/
theorem test_encoder_ends :
    seenEnc (encoderStep (encodingAt 0 [11, 22, 0, 33] 4 [33])) = some (.doneOk, [], some [2, 33, 0]) := by decide
/-- P6: the closing of a full accumulator writes an extra empty group under `pad` only. -/
theorem test_close_full_run :
    (closeBytes .plain (List.replicate 254 1)).length = 255 ∧ (closeBytes .pad (List.replicate 254 1)).length = 256 := by
  decide +kernel
/-- R106: a full accumulator is flushed when the next data byte of the run arrives. -/
theorem test_encoder_flushes :
    (nextOf (encoderStep (encodingAt 0 [7] 0 (List.replicate 254 1)))).map (fun s => (s.acc, s.outIdx, s.i)) =
      some ([7], 255, 1) := by decide +kernel
/-- S1-S5 and rows of 2.4. -/
theorem test_encode_vectors :
    encodeFrame .plain 0 [0] = [1, 1, 0] ∧ encodeFrame .plain 0 [0, 0] = [1, 1, 1, 0] ∧
      encodeFrame .plain 0 [11, 22, 0, 33] = [3, 11, 22, 2, 33, 0] ∧
      encodeFrame .pad 0 [11, 0, 0, 0] = [2, 11, 1, 1, 1, 0] ∧ encodeFrame .plain 0 [] = [1, 0] ∧
      encodeFrame .plain 3 [11, 22] = [3, 11, 22, 3] ∧ encodeFrame .plain 255 [255] = [1, 1, 255] := by decide
/-- S6-S12 and rows of 2.6. -/
theorem test_decode_vectors :
    decodeFrame 0 [3, 11, 22, 2, 33, 0] = .ok [11, 22, 0, 33] ∧
      decodeFrame 0 [3, 11, 22, 3, 33, 0] = .err .invalidChunkLength ∧
      decodeFrame 0 [] = .err .missingTerminalDelimiter ∧ decodeFrame 0 [0] = .ok [] ∧
      decodeFrame 0 [5, 1] = .err .missingTerminalDelimiter ∧ decodeFrame 0 [3, 11, 0] = .err .invalidChunkLength ∧
      decodeFrame 3 [2, 0, 2, 7, 3] = .ok [0, 3, 7] ∧ decodeFrame 1 [0, 5, 1] = .err .invalidChunkLength := by decide

/-! ### Stops -/

/-- A group is no instruction when nothing is being decoded. -/
theorem test_group_outside_decode : exec (.grp 3) (loaded 0 [3, 11, 22, 0]) = .refused .noGroupHere := rfl
/-- An unwritten byte of IN is not read (R34). -/
theorem test_unwritten_input_faults : exec .decode { State.reset with inLen := 2 } = .fault (.inUnwritten 1) := rfl
/-- An OUT that is too small stops the append (U10). -/
theorem test_small_out_stops :
    exec (.grp 3) { decodingAt 0 [3, 11, 22, 0] 0 with outCap := some 1 } = .refused .outTooSmall := rfl
/-- R157, D16: the host must not write CFG.DELIM while BUSY; nothing is written. -/
theorem test_delimiter_write_while_busy :
    writeRegister .cfgDelim 5 (decodingAt 0 frame1 0) = .refused .registerBusy := rfl
/-- An address names what the platform's map puts there: the ends of both windows, and the first address behind one (R47). -/
theorem test_addresses :
    (mapped State.reset []).locate 16 = some (.register .cfgDelim) ∧ (mapped State.reset []).locate 32 = some (.inByte 0) ∧
      (mapped State.reset []).locate 67 = some (.outByte 3) ∧ (mapped State.reset []).locate 68 = none := by decide
/-- OUT is not readable after a failed DECODE (R197). -/
theorem test_no_output_after_error : hostReadOut 0 failed = .refused .outNotReadable := rfl

/-! ### Witnesses: for each statement with hypotheses, a concrete state and operands that meet them -/

theorem witness_DecodeOfEncode :
    (Instr.grp 254).wf = true ∧ encode 0 (.grp 254) = some [254] ∧ (([0] : List Byte) = [] ↔ Instr.grp 254 = .term) ∧
      encode 7 .term = some [7] ∧ (([] : List Byte) = [] ↔ Instr.term = .term) ∧ encodeCmd .decode = some 1 := by decide
theorem witness_DisassembleOfAssemble :
    (∀ l ∈ ([⟨.grp 3, [11, 22]⟩, ⟨.grp 1, []⟩] : List Line), lineWf l = true) ∧
      ([⟨.grp 3, [11, 22]⟩, ⟨.grp 1, []⟩] : List Line).length ≤ 2 ∧
      lineWf ⟨.grpf, List.replicate 254 9⟩ = true := by decide +kernel
theorem witness_AssembleOfDisassemble : disassemble 1 [2, 5, 0] = some [⟨.grp 2, [5]⟩, ⟨.term, []⟩] := by decide
theorem witness_StepRunsTheDecodedInstruction_group :
    (decodingAt 0 frame1 3).script = [] ∧ (decodingAt 0 frame1 3).decoding = true ∧
      (decodingAt 0 frame1 3).pos < (decodingAt 0 frame1 3).last ∧
      ([33, 0] : List Byte).length = (decodingAt 0 frame1 3).last - (decodingAt 0 frame1 3).pos ∧
      (decodingAt 0 frame1 3).last < (decodingAt 0 frame1 3).inLen ∧
      (decodingAt 0 frame1 3).inBuf.read 3 = some 2 ∧ decodeBytes [2, 33, 0] = .ok (.grp 2) := by decide
theorem witness_StepRunsTheDecodedInstruction_term :
    (decodingAt 0 frame1 5).decoding = true ∧ (decodingAt 0 frame1 5).pos = (decodingAt 0 frame1 5).last ∧
      ([] : List Byte).length = (decodingAt 0 frame1 5).last - (decodingAt 0 frame1 5).pos ∧
      decodeBytes [0] = .ok .term := by decide
theorem witness_StepRunsThePendingCommand :
    ({ State.reset with script := [.issue (.pack [1])] } : State).script = [.issue (.pack [1])] ∧
      isHostCommand (.pack [1]) = true ∧
      ({ State.reset with script := [.writeReg .cmdOp (1 : BitVec 1).toNat] } : State).script =
        [.writeReg .cmdOp (1 : BitVec 1).toNat] ∧
      (mapped State.reset [.writeAt 17 (1 : BitVec 1).toNat]).script = [.writeAt 17 (1 : BitVec 1).toNat] ∧
      (mapped State.reset [.writeAt 17 (1 : BitVec 1).toNat]).locate 17 = some (.register .cmdOp) ∧
      (mapped (decodingAt 0 frame1 0) [.letEngineStep, .passFrame]).script = [.letEngineStep, .passFrame] := by decide
theorem witness_NoOperationStartsByItself : (finished [5]).script = [] ∧ (finished [5]).phase ≠ .busy := by decide
/-- R128's three cases: not the last group, the last group (`pos + L = last`), past the frame (`pos + L = last + 1`). -/
theorem witness_GrpCopiesAndReinserts :
    (decodingAt 0 frame1 0).atGroup = true ∧ 0 + (3 : Byte).toNat ≤ (decodingAt 0 frame1 0).last ∧
      (decodingAt 0 frame1 0).inBuf.readRange 1 2 = some [11, 22] ∧ (decodingAt 0 frame1 0).hasRoom 3 = true ∧
      (decodingAt 0 frame1 3).atGroup = true ∧ 3 + (2 : Byte).toNat = (decodingAt 0 frame1 3).last ∧
      (decodingAt 0 frame1 3).inBuf.readRange 4 1 = some [33] ∧
      (decodingAt 0 frame1 0).last < (decodingAt 0 frame1 0).inLen ∧
      (decodingAt 0 frame1 3).last < 3 + (3 : Byte).toNat := by decide
theorem witness_GrpfCopiesAndReinsertsNothing :
    (decodingAt 0 (255 :: List.replicate 254 1 ++ [0]) 0).atGroup = true ∧
      (decodingAt 0 (255 :: List.replicate 254 1 ++ [0]) 0).last = 0 + 255 ∧
      (decodingAt 0 (255 :: List.replicate 254 1 ++ [0]) 0).last < (decodingAt 0 (255 :: List.replicate 254 1 ++ [0]) 0).inLen ∧
      (decodingAt 0 (255 :: List.replicate 254 1 ++ [0]) 0).inBuf.readRange 1 254 = some (List.replicate 254 1) ∧
      (decodingAt 0 (255 :: List.replicate 254 1 ++ [0]) 0).hasRoom 254 = true ∧
      (decodingAt 0 frame1 0).atGroup = true ∧ (decodingAt 0 frame1 0).last < 0 + 255 := by decide +kernel
theorem witness_Rsv0Raises : (decodingAt 0 [0, 5, 0] 0).atGroup = true := by decide
theorem witness_TermEndsTheOperation :
    (decodingAt 0 frame1 5).atTerm = true ∧
      ∃ t, (loaded 3 [3]).phase ≠ .busy ∧ (loaded 3 [3]).inLen = 1 ∧ exec .decode (loaded 3 [3]) = .next t ∧
        t.phase = .busy := ⟨by decide, _, by decide, rfl, rfl, by decide⟩
theorem witness_GroupAppendsToOut :
    ∃ t, exec (.grp 3) (decodingAt 0 frame1 0) = .next t ∧ t.phase ≠ .doneErr ∧
      (decodingAt 0 frame1 0).output = some [] := ⟨_, rfl, by decide, by decide⟩
theorem witness_GroupAppendsToOut_full :
    ∃ t, exec .grpf (decodingAt 0 (255 :: List.replicate 254 1 ++ [0]) 0) = .next t ∧ t.phase = .busy :=
  next_with_phase (by decide +kernel)
theorem witness_FrameInstructionsLeaveTheRest :
    (∃ t, exec (.grp 2) (decodingAt 0 frame1 3) = .next t ∧ t.phase ≠ .doneErr) ∧
      (∃ t, exec .grpf (decodingAt 0 frame1 0) = .next t ∧ t.phase = .doneErr) ∧
      (∃ t, exec .rsv0 (decodingAt 0 [0, 5, 0] 0) = .next t) ∧ (∃ t, exec .term (decodingAt 0 frame1 5) = .next t) :=
  ⟨⟨_, rfl, by decide⟩, ⟨_, rfl, by decide⟩, ⟨_, rfl⟩, ⟨_, rfl⟩⟩
theorem witness_PositionAdvancesByTheLength :
    (∃ t, exec (.grp 2) (decodingAt 0 frame1 3) = .next t ∧ t.phase ≠ .doneErr) ∧
      (∃ t, exec .grpf (decodingAt 0 (255 :: List.replicate 254 1 ++ [0]) 0) = .next t ∧ t.phase = .busy) ∧
      (∃ t, exec .decode { loaded 0 frame1 with pos := 9 } = .next t ∧ (loaded 0 frame1).phase ≠ .busy ∧ t.phase = .busy) ∧
      (∃ t, exec .decode { loaded 0 [1, 1] with pos := 9 } = .next t ∧ t.phase ≠ .busy) ∧
      (∃ t, exec .decode (decodingAt 0 frame1 3) = .next t ∧ (decodingAt 0 frame1 3).phase = .busy) ∧
      (∃ t, exec .term (decodingAt 0 frame1 5) = .next t) :=
  ⟨⟨_, rfl, by decide⟩, next_with_phase (by decide +kernel), ⟨_, rfl, by decide, by decide⟩, ⟨_, rfl, by decide⟩,
    ⟨_, rfl, rfl⟩, ⟨_, rfl⟩⟩
theorem witness_MisplacedInstructionsStop :
    (loaded 0 frame1).atGroup = false ∧ (decodingAt 0 frame1 5).atGroup = false ∧ (Instr.grp 3).wf = true ∧
      (decodingAt 0 frame1 3).atTerm = false ∧ (Instr.grp 0).wf = false ∧ 254 < (List.replicate 255 (1 : Byte)).length := by
  decide +kernel
theorem witness_OnlyDecodeRaises :
    (∃ t, exec .decode (loaded 0 [1, 1]) = .next t ∧ (loaded 0 [1, 1]).phase ≠ .doneErr ∧ t.phase = .doneErr) ∧
      (∃ t, exec (.grp 3) (decodingAt 0 frame1 3) = .next t ∧ t.phase = .doneErr) ∧
      (∃ t, encoderStep (encodingAt 0 [0] 0 []) = .next t ∧ (encodingAt 0 [0] 0 []).phase ≠ .doneErr) ∧
      ((decodingAt 0 frame1 3).atGroup = true ∧ (decodingAt 0 frame1 3).last < 3 + (3 : Byte).toNat ∧
        (decodingAt 0 frame1 3).last < 3 + 255) ∧
      ((loaded 0 [1, 1]).inBuf.read ((loaded 0 [1, 1]).inLen - 1) = some 1 ∧ (1 : Byte) ≠ (loaded 0 [1, 1]).cfgDelim) ∧
      (State.reset.phase ≠ .busy ∧ State.reset.tooLong = false ∧ State.reset.inLen = 0) :=
  ⟨⟨_, rfl, by decide, by decide⟩, ⟨_, rfl, by decide⟩, ⟨_, rfl, by decide⟩, by decide, by decide, by decide⟩
theorem witness_ErrorIsFinal :
    failed.phase = .doneErr ∧ (∃ t, step failed = .next t) ∧ failed.script = [] ∧
      (∃ t, step { failed with script := [.readReg .statusCause] } = .next t) ∧
      (∃ t, step (mapped failed [.writeAt 16 5]) = .next t) ∧
      (mapped failed [.writeAt 16 5]).locate 16 ≠ some (.register .cmdOp) :=
  ⟨rfl, ⟨_, rfl⟩, rfl, ⟨_, rfl⟩, ⟨_, rfl⟩, by decide⟩
theorem witness_EncodeStarts : (finished [5]).phase ≠ .busy ∧ (finished [5]).tooLong = false := by decide
theorem witness_DecodeStarts :
    (loaded 0 frame1).phase ≠ .busy ∧ (loaded 0 frame1).tooLong = false ∧ 0 < (loaded 0 frame1).inLen ∧
      (loaded 0 frame1).inBuf.read ((loaded 0 frame1).inLen - 1) = some (loaded 0 frame1).cfgDelim := by decide
theorem witness_DecodeChecksTheTerminalDelimiter :
    (loaded 0 [1, 1]).phase ≠ .busy ∧ (loaded 0 [1, 1]).tooLong = false ∧ 0 < (loaded 0 [1, 1]).inLen ∧
      (loaded 0 [1, 1]).inBuf.read ((loaded 0 [1, 1]).inLen - 1) = some 1 ∧ (1 : Byte) ≠ (loaded 0 [1, 1]).cfgDelim ∧
      (loaded 1 [1]).inBuf.read ((loaded 1 [1]).inLen - 1) = some (loaded 1 [1]).cfgDelim := by decide
theorem witness_DecodeOfNothingRaises :
    (loaded 0 []).phase ≠ .busy ∧ (loaded 0 []).tooLong = false ∧ (loaded 0 []).inLen = 0 := by decide
theorem witness_StartsTurnedAway :
    (decodingAt 0 frame1 0).phase = .busy ∧
      (∃ s : State, s.phase ≠ .busy ∧ s.maxLen = some 5 ∧ 5 < s.inLen) ∧
      (∃ s : State, s.phase ≠ .busy ∧ s.maxLen = some 6 ∧ s.inLen ≤ 6) :=
  ⟨by decide, ⟨{ loaded 0 frame1 with maxLen := some 5 }, by decide, rfl, by decide⟩,
    ⟨{ loaded 0 frame1 with maxLen := some 6 }, by decide, rfl, by decide⟩⟩
theorem witness_CommandsLeaveTheRest :
    (∃ t, exec .encode (loaded 0 [5]) = .next t) ∧ (∃ t, exec .decode (loaded 0 frame1) = .next t) ∧
      (∃ t, exec .decode (decodingAt 0 frame1 0) = .next t ∧ (decodingAt 0 frame1 0).phase = .busy) :=
  ⟨⟨_, rfl⟩, ⟨_, rfl⟩, ⟨_, rfl, rfl⟩⟩
theorem witness_ChunkGivesTheChunks :
    State.reset.chunkTail = .plain ∧ ({ State.reset with chunkTail := .pad } : State).chunkTail = .pad := by decide
theorem witness_PackGivesTheGroup : ([] : List Byte).length ≤ 254 ∧ (List.replicate 254 (1 : Byte)).length ≤ 254 := by
  decide +kernel
theorem witness_ScanCutsAtTheFirstDelimiter :
    (0 : Byte) ∉ ({ State.reset with rx := [5] } : State).rx ∧
      ({ State.reset with rx := [1, 1, 0, 5] } : State).rx = [1, 1] ++ [0] ++ [5] ∧ (0 : Byte) ∉ ([1, 1] : List Byte) := by
  decide
/-- The stream's other actions: bytes that arrive, a scanned frame and none, a finished OUT and a failed DECODE. -/
theorem witness_ScanCutsAtTheFirstDelimiter_stream :
    ({ State.reset with script := [.receive [1, 0]] } : State).script = [.receive [1, 0]] ∧
      ({ State.reset with script := [.passFrame] } : State).scanned = .noFrameYet ∧
      ({ State.reset with script := [.passFrame], scanned := .frame [1, 0] [5] } : State).phase ≠ .busy ∧
      ({ finished [1, 0] with script := [.sendFrame] } : State).phase = .doneOk ∧
      ({ finished [1, 0] with script := [.sendFrame] } : State).outBuf.readRange 0
        ({ finished [1, 0] with script := [.sendFrame] } : State).outLen = some [1, 0] ∧
      ({ failed with script := [.sendFrame] } : State).phase ≠ .doneOk := by decide
theorem witness_UnitsAndScanLeaveTheBlock :
    (∃ t, exec (.split [1] 0) (finished [5]) = .next t) ∧ (∃ t, exec (.chunk [1]) (finished [5]) = .next t) ∧
      (∃ t, exec (.pack [1]) (finished [5]) = .next t) ∧ (∃ t, exec (.scan 0) (finished [5]) = .next t) :=
  ⟨⟨_, rfl⟩, ⟨_, rfl⟩, ⟨_, rfl⟩, ⟨_, rfl⟩⟩
theorem witness_EncoderMachineComputesEncode :
    ∃ s : State, s.script = [] ∧ s.phase ≠ .busy ∧ s.tooLong = false ∧ s.input = some [11, 22, 0, 33] ∧
      s.fitsOut (encodeFrame s.chunkTail s.cfgDelim [11, 22, 0, 33]).length :=
  ⟨{ loaded 0 [11, 22, 0, 33] with outCap := some 6 }, by decide, by decide, by decide, by decide,
    fun c h => by cases h; decide⟩
theorem witness_DecoderMachineComputesDecode :
    ∃ s : State, s.script = [] ∧ s.phase ≠ .busy ∧ s.tooLong = false ∧ s.input = some frame1 ∧
      s.fitsOut (frame1.length - 2) :=
  ⟨{ loaded 0 frame1 with outCap := some 4 }, by decide, by decide, by decide, by decide, fun c h => by cases h; decide⟩

/-- A state in the middle of a DECODE that meets the invariant. -/
theorem decodingAt_inv : (decodingAt 0 frame1 0).Inv where
  inWf := by decide
  outWf := by decide
  flags := by unfold State.flagsAgree; decide
  length := by unfold State.lengthAgrees; decide
  dense := by unfold State.outDense; decide
  decoder := by unfold State.decoderInRange; decide
  encoder := by unfold State.encoderInRange; decide
  fits := by unfold State.outFits; decide

/-- A state in the middle of an ENCODE that meets the invariant. -/
theorem encodingAt_inv : (encodingAt 0 [11, 22, 0, 33] 1 [11]).Inv where
  inWf := by decide
  outWf := by decide
  flags := by unfold State.flagsAgree; decide
  length := by unfold State.lengthAgrees; decide
  dense := by unfold State.outDense; decide
  decoder := by unfold State.decoderInRange; decide
  encoder := by unfold State.encoderInRange; decide
  fits := by unfold State.outFits; decide

theorem witness_EveryStepKeepsTheInvariant :
    (∃ t, (decodingAt 0 frame1 0).Inv ∧ step (decodingAt 0 frame1 0) = .next t) ∧
      (∃ t, (encodingAt 0 [11, 22, 0, 33] 1 [11]).Inv ∧ step (encodingAt 0 [11, 22, 0, 33] 1 [11]) = .next t) :=
  ⟨⟨_, decodingAt_inv, rfl⟩, ⟨_, encodingAt_inv, rfl⟩⟩
theorem bounded_inv : ({ decodingAt 0 frame1 0 with outCap := some 257 } : State).Inv where
  inWf := decodingAt_inv.inWf
  outWf := decodingAt_inv.outWf
  flags := decodingAt_inv.flags
  length := decodingAt_inv.length
  dense := decodingAt_inv.dense
  decoder := decodingAt_inv.decoder
  encoder := decodingAt_inv.encoder
  fits := fun _ => by decide
/-- An OUT with room for exactly 257 bytes, and one without a bound. -/
theorem witness_EngineNeverStops :
    (∃ s : State, s.Inv ∧ s.script = [] ∧ s.input = some frame1 ∧ s.outCap = some 257 ∧ s.hasRoom 257 = true) ∧
      (decodingAt 0 frame1 0).Inv ∧ (decodingAt 0 frame1 0).script = [] ∧ (decodingAt 0 frame1 0).input = some frame1 ∧
      (decodingAt 0 frame1 0).hasRoom 257 = true :=
  ⟨⟨_, bounded_inv, by decide, by decide, rfl, by decide⟩, decodingAt_inv, by decide, by decide, by decide⟩
theorem witness_EngineNeverWritesTheInput :
    (∃ t, exec (.grp 3) (decodingAt 0 frame1 0) = .next t) ∧
      ∃ t, engineStep (encodingAt 0 [11, 22, 0, 33] 1 [11]) = .next t := ⟨⟨_, rfl⟩, ⟨_, rfl⟩⟩
theorem witness_OutIsAppendOnly :
    ∃ t, (decodingAt 0 frame1 0).script = [] ∧ (decodingAt 0 frame1 0).phase = .busy ∧
      step (decodingAt 0 frame1 0) = .next t ∧ t.phase ≠ .doneErr := ⟨_, rfl, rfl, rfl, by decide⟩
theorem witness_NothingCarriesOver :
    (loaded 0 frame1).phase ≠ .busy ∧ ({ loaded 0 frame1 with pos := 9, acc := [1], phase := .doneOk } : State).phase ≠ .busy ∧
      sameOperands (loaded 0 frame1) { loaded 0 frame1 with pos := 9, acc := [1], phase := .doneOk } ∧
      ∃ t, exec .decode (loaded 0 frame1) = .next t ∧ ∃ u, runSteps 1 t = .next u :=
  ⟨by decide, by decide, ⟨rfl, rfl, rfl, rfl, rfl, rfl, rfl, rfl⟩, _, rfl, _, rfl⟩
theorem witness_InstancesAreIndependent :
    ∃ a b, stepOne 0 [decodingAt 0 frame1 0, encodingAt 0 [0] 0 []] = .next a ∧ stepOne 1 a = .next b := ⟨_, _, rfl, rfl⟩
theorem witness_PlainFramesCollide :
    (List.replicate 254 (1 : Byte)).length = 254 ∧ (0 : Byte) ∉ List.replicate 254 (1 : Byte) ∧ ([5] : List Byte) ≠ [] ∧
      (0 : Byte) ∉ ([5] : List Byte) := by decide +kernel
theorem witness_SettingsAgreeWithoutFullRuns : noFullRun 0 [11, 22, 0, 33] := by unfold noFullRun; decide
theorem witness_DecodedLength : decodeFrame 0 [1, 1, 0] = .ok [0] ∧ decodeFrame 0 [0] = .ok [] := by decide
theorem witness_MismatchedDelimiters : (3 : Byte) ≠ 0 := by decide
theorem witness_ScannedFramesPassTheTermCheck : scanBytes 0 [1, 1, 0, 5] = .frame [1, 1, 0] [5] := by decide
theorem witness_ScanHazardOfNonZeroDelimiters :
    (3 : Byte) ∉ ([11, 22] : List Byte) ∧ ([11, 22] : List Byte).length + 1 = (3 : Byte).toNat := by decide
theorem witness_OperandsAreStableWhileBusy :
    (∀ a ∈ ([.writeReg .cfgDelim 5, .writeReg .inLen 5, .writeIn 0 5, .loadIn [5], .provideOut none] : List HostAction),
      ({ decodingAt 0 frame1 0 with script := [a] } : State).phase = .busy ∧
        ({ decodingAt 0 frame1 0 with script := [a] } : State).script = a :: []) ∧
      ({ decodingAt 0 frame1 0 with script := [.passFrame], scanned := .frame [1, 0] [] } : State).phase = .busy ∧
      (mapped (decodingAt 0 frame1 0) [.writeAt 16 5]).phase = .busy ∧
      (mapped (decodingAt 0 frame1 0) [.writeAt 16 5]).locate 16 = some (.register .cfgDelim) ∧
      (mapped (decodingAt 0 frame1 0) [.writeAt 18 5]).locate 18 = some (.register .inLen) ∧
      (mapped (decodingAt 0 frame1 0) [.writeAt 35 255]).locate 35 = some (.inByte 3) :=
  ⟨fun _ _ => ⟨rfl, rfl⟩, by decide, by decide, by decide, by decide, by decide⟩
/-- Each write of O56 pending while not BUSY, with the ends of the ranges: delimiter 255 and 256, an empty buffer, CMD.OP 2. -/
theorem witness_HostSetsTheDelimiter :
    ∀ a ∈ ([.writeReg .cfgDelim (255 : Byte).toNat, .writeReg .inLen 0, .writeIn 0 255, .loadIn [], .loadIn [1, 0],
        .provideOut none, .provideOut (some 0), .writeReg .cfgDelim 256, .writeReg .cmdOp 2] : List HostAction),
      ({ finished [5] with script := [a] } : State).phase ≠ .busy ∧
        ({ finished [5] with script := [a] } : State).script = a :: [] := fun _ _ => ⟨(by decide : (finished [5]).phase ≠ .busy), rfl⟩
theorem finished_inv : ({ finished [5] with script := [.readOut 0] } : State).Inv where
  inWf := by decide
  outWf := by decide
  flags := by unfold State.flagsAgree; decide
  length := by unfold State.lengthAgrees; decide
  dense := by unfold State.outDense; decide
  decoder := by unfold State.decoderInRange; decide
  encoder := by unfold State.encoderInRange; decide
  fits := by unfold State.outFits; decide
theorem failed_inv : ({ failed with script := [.readOut 0] } : State).Inv where
  inWf := by decide
  outWf := by decide
  flags := by unfold State.flagsAgree; decide
  length := by unfold State.lengthAgrees; decide
  dense := by unfold State.outDense; decide
  decoder := by unfold State.decoderInRange; decide
  encoder := by unfold State.encoderInRange; decide
  fits := by unfold State.outFits; decide
theorem witness_OutIsReadableOnlyWhenDone :
    (∃ s : State, s.Inv ∧ s.script = [.readOut 0] ∧ s.phase = .doneOk ∧ 0 < s.outLen) ∧
      (∃ s : State, s.Inv ∧ s.script = [.readOut 0] ∧ ¬ (s.phase = .doneOk ∧ 0 < s.outLen)) :=
  ⟨⟨_, finished_inv, rfl, by decide, by decide⟩, ⟨_, failed_inv, rfl, by decide⟩⟩
theorem witness_RegistersReadAsListed :
    State.reset.phase ≠ .busy ∧ (mapped State.reset [.readAt 16]).locate 16 = some (.register .cfgDelim) ∧
      (mapped State.reset [.readAt 64]).locate 64 = some (.outByte 0) ∧
      (mapped State.reset [.readAt 32]).locate 32 = some (.inByte 0) ∧ (mapped State.reset [.readAt 0]).locate 0 = none ∧
      (mapped State.reset [.writeAt 35 255]).locate 35 = some (.inByte 3) ∧ 255 = (255 : Byte).toNat ∧
      (mapped State.reset [.writeAt 35 256]).locate 35 = some (.inByte 3) ∧
      (mapped State.reset [.writeAt 68 0]).locate 68 = none ∧ (mapped State.reset [.writeAt 64 0]).locate 64 = some (.outByte 0) := by
  decide
/-- A read that is given, and the three that are not, the last while BUSY. -/
theorem witness_RegistersReadAsListed_reads :
    readRegister .outLen (finished [5]) = .next 1 ∧
      (∀ a ∈ ([.readReg .outLen, .readReg .cmdOp, .readReg .inLen] : List HostAction),
        ({ finished [5] with script := [a] } : State).script = a :: []) ∧
      ({ decodingAt 0 frame1 0 with script := [.readReg .cfgDelim] } : State).phase = .busy :=
  ⟨rfl, fun _ _ => rfl, rfl⟩
theorem witness_ResetAbandonsTheOperation :
    ({ decodingAt 0 frame1 3 with script := [.resetBlock] } : State).script = [.resetBlock] := by decide

end Sys2Proof.Tests
end

/-! ## Nothing is carried over from one operation into the next (10_state.md R20)

A relation between two blocks, `SameOperation`, that compares only what the operation in progress may look at: the operands, the
status, OUT, and the working registers of the side that runs. A start makes two blocks with the same operands related, and every
step of the engine keeps them related, so they show the same result at every step. -/

namespace Sys2Proof.Machine

/-- Two blocks at the same point of the same operation. The other side's working registers, the address map, the units' result
and the host's own data may be anything. -/
structure SameOperation (s t : State) : Prop where
  operands : sameOperands s t
  status : sameStatus s t
  outIdx : t.outIdx = s.outIdx
  outBuf : t.outBuf = s.outBuf
  encoder : s.encoding = true → sameEncoder s t
  decoder : s.decoding = true → sameDecoder s t

/-- Wherever the first outcome goes on, the second goes on too, to a block at the same point. -/
def Follows (o p : Host.Outcome State Fault Refusal) : Prop :=
  ∀ s, o = .next s → ∃ t, p = .next t ∧ SameOperation s t

/-! ### Outcomes that follow each other -/

theorem follows_next {s t : State} (h : SameOperation s t) : Follows (.next s) (.next t) := by
  rintro s' ⟨⟩
  exact ⟨t, rfl, h⟩

theorem follows_refused (r : Refusal) (p : Host.Outcome State Fault Refusal) : Follows (.refused r) p := by
  rintro s' ⟨⟩

theorem follows_andThen {o p : Host.Outcome State Fault Refusal} {f g : State → Host.Outcome State Fault Refusal}
    (hop : Follows o p) (hfg : ∀ s t, SameOperation s t → Follows (f s) (g t)) :
    Follows (andThen o f) (andThen p g) := by
  intro s' h
  obtain ⟨s, ho, hf⟩ := (andThen_eq_next _ _ _).mp h
  obtain ⟨t, rfl, hst⟩ := hop s ho
  exact hfg s t hst s' hf

/-- Both blocks go on with one and the same value, such as a byte of IN. -/
theorem follows_andThen_value {α : Type} {o : Host.Outcome α Fault Refusal}
    {f g : α → Host.Outcome State Fault Refusal} (hfg : ∀ a, o = .next a → Follows (f a) (g a)) :
    Follows (andThen o f) (andThen o g) := by
  intro s' h
  obtain ⟨a, rfl, hf⟩ := (andThen_eq_next _ _ _).mp h
  exact hfg a rfl s' hf

/-! ### The same operands read the same -/

section operands
variable {s t : State} (h : sameOperands s t)
include h

theorem chunkTail_eq_of_sameOperands : t.chunkTail = s.chunkTail := by
  obtain ⟨-, -, htail, -⟩ := h
  exact htail

theorem outCap_eq_of_sameOperands : t.outCap = s.outCap := by
  obtain ⟨-, -, -, -, hcap, -⟩ := h
  exact hcap

theorem cfgDelim_eq_of_sameOperands : t.cfgDelim = s.cfgDelim := by
  obtain ⟨-, -, -, -, -, hdelim, -⟩ := h
  exact hdelim

theorem inLen_eq_of_sameOperands : t.inLen = s.inLen := by
  obtain ⟨-, -, -, -, -, -, hlen, -⟩ := h
  exact hlen

theorem tooLong_eq_of_sameOperands : t.tooLong = s.tooLong := by
  obtain ⟨-, -, -, hmax, -, -, hlen, -⟩ := h
  simp only [State.tooLong, hmax, hlen]

theorem readIn_eq_of_sameOperands (idx : Nat) : readIn idx t = readIn idx s := by
  obtain ⟨-, -, -, -, -, -, hlen, hbuf⟩ := h
  simp only [readIn, hlen, hbuf]

theorem readInRange_eq_of_sameOperands (idx n : Nat) :
    readInRange idx n t = readInRange idx n s := by
  induction n generalizing idx with
  | zero => rfl
  | succ n ih => simp only [readInRange, readIn_eq_of_sameOperands h, ih]

end operands

/-! ### The named updates keep two blocks at the same point -/

namespace SameOperation
variable {s t : State}

theorem sameResult (h : SameOperation s t) : sameResult s t := by
  obtain ⟨-, hphase, hcause, hlen⟩ := h.status
  exact ⟨hphase, hcause, hlen, h.outBuf⟩

theorem phase (h : SameOperation s t) : t.phase = s.phase := h.status.2.1

theorem cmdOp (h : SameOperation s t) : t.cmdOp = s.cmdOp := h.status.1

theorem cfgDelim (h : SameOperation s t) : t.cfgDelim = s.cfgDelim := cfgDelim_eq_of_sameOperands h.operands

theorem hasRoom (h : SameOperation s t) (n : Nat) : t.hasRoom n = s.hasRoom n := by
  simp only [State.hasRoom, outCap_eq_of_sameOperands h.operands, h.outIdx]

theorem pushOut (h : SameOperation s t) (bs : List Byte) : SameOperation (s.pushOut bs) (t.pushOut bs) :=
  { h with
    outIdx := by simp [h.outIdx]
    outBuf := by simp [h.outBuf, h.outIdx] }

theorem setAcc (h : SameOperation s t) (a : List Byte) : SameOperation (s.setAcc a) (t.setAcc a) :=
  { h with encoder := fun he => ⟨(h.encoder he).1, rfl⟩ }

theorem nextByte (h : SameOperation s t) : SameOperation s.nextByte t.nextByte :=
  { h with encoder := fun he => ⟨congrArg (· + 1) (h.encoder he).1, (h.encoder he).2⟩ }

theorem advance (h : SameOperation s t) (L : Byte) : SameOperation (s.advance L) (t.advance L) :=
  { h with decoder := fun hd => ⟨congrArg (· + L.toNat) (h.decoder hd).1, (h.decoder hd).2⟩ }

theorem setDoneOk (h : SameOperation s t) : SameOperation s.setDoneOk t.setDoneOk :=
  { h with
    status := ⟨h.cmdOp, rfl, rfl, h.outIdx⟩
    encoder := fun he => by simp [State.encoding] at he
    decoder := fun hd => by simp [State.decoding] at hd }

end SameOperation

/-- A raise leaves nothing behind that the operation before it could have marked. -/
theorem raiseCorruptFrame_follows {s t : State} (h : sameOperands s t) (hop : t.cmdOp = s.cmdOp) (c : CorruptFrame) :
    Follows (raiseCorruptFrame c s) (raiseCorruptFrame c t) :=
  follows_next
    { operands := h
      status := ⟨hop, rfl, rfl, rfl⟩
      outIdx := rfl
      outBuf := rfl
      encoder := fun he => by simp [State.encoding] at he
      decoder := fun hd => by simp [State.decoding] at hd }

theorem appendOut_follows {s t : State} (h : SameOperation s t) (bs : List Byte) :
    Follows (appendOut bs s) (appendOut bs t) := by
  simp only [appendOut, h.hasRoom]
  split
  · exact follows_next (h.pushOut bs)
  · exact follows_refused _ _

/-! ### The steps of an ENCODE -/

section encoder
variable {s t : State} (h : SameOperation s t) (he : s.encoding = true)
include h he

theorem closeRun_follows : Follows (closeRun s) (closeRun t) := by
  simp only [closeRun, chunkTail_eq_of_sameOperands h.operands, (h.encoder he).2]
  exact follows_andThen (appendOut_follows h _) fun _ _ h' => follows_next (h'.setAcc [])

theorem accumulate_follows (x : Byte) : Follows (accumulate x s) (accumulate x t) := by
  simp only [accumulate, (h.encoder he).2]
  split
  · exact follows_andThen (appendOut_follows h _) fun _ _ h' => follows_next (h'.setAcc [x])
  · exact follows_next (h.setAcc _)

theorem finishEncode_follows : Follows (finishEncode s) (finishEncode t) := by
  refine follows_andThen (closeRun_follows h he) fun s' t' h' => ?_
  rw [h'.cfgDelim]
  exact follows_andThen (appendOut_follows h' _) fun _ _ h'' => follows_next h''.setDoneOk

theorem encoderStep_follows : Follows (encoderStep s) (encoderStep t) := by
  simp only [encoderStep, readIn_eq_of_sameOperands h.operands, inLen_eq_of_sameOperands h.operands, (h.encoder he).1,
    h.cfgDelim]
  split
  · refine follows_andThen_value fun x _ => follows_andThen ?_ fun _ _ h' => follows_next h'.nextByte
    split
    · exact closeRun_follows h he
    · exact accumulate_follows h he x
  · split
    · exact finishEncode_follows h he
    · exact follows_refused _ _

end encoder

/-! ### The steps of a DECODE -/

section decoder
variable {s t : State} (h : SameOperation s t) (hd : s.decoding = true)
include h

theorem decoding_eq_of_sameOperation : t.decoding = s.decoding := by
  simp only [State.decoding, h.phase, h.cmdOp]

include hd

theorem atGroup_eq_of_sameOperation : t.atGroup = s.atGroup := by
  obtain ⟨hpos, hlast⟩ := h.decoder hd
  simp only [State.atGroup, decoding_eq_of_sameOperation h, hpos, hlast]

theorem atTerm_eq_of_sameOperation : t.atTerm = s.atTerm := by
  obtain ⟨hpos, hlast⟩ := h.decoder hd
  simp only [State.atTerm, decoding_eq_of_sameOperation h, hpos, hlast]

theorem fetch_eq_of_sameOperation : fetch t = fetch s := by
  obtain ⟨hpos, hlast⟩ := h.decoder hd
  simp only [fetch, readIn_eq_of_sameOperands h.operands, hpos, hlast]

theorem nextPos_eq_of_sameOperation (L : Byte) : t.nextPos L = s.nextPos L :=
  congrArg (· + L.toNat) (h.decoder hd).1

theorem reinserted_eq_of_sameOperation (L : Byte) : reinserted L t = reinserted L s := by
  simp only [reinserted, nextPos_eq_of_sameOperation h hd, (h.decoder hd).2, h.cfgDelim]

theorem copyGroup_follows (L : Byte) (sep : List Byte) : Follows (copyGroup L sep s) (copyGroup L sep t) := by
  obtain ⟨hpos, hlast⟩ := h.decoder hd
  simp only [copyGroup, groupData, nextPos_eq_of_sameOperation h hd, readInRange_eq_of_sameOperands h.operands, hpos,
    hlast]
  split
  · exact raiseCorruptFrame_follows h.operands h.cmdOp _
  · exact follows_andThen_value fun d _ =>
      follows_andThen (appendOut_follows h _) fun _ _ h' => follows_next (h'.advance L)

/-- The instructions a frame can hold. -/
theorem exec_frame_follows (i : Instr) (hi : isHostCommand i = false) : Follows (exec i s) (exec i t) := by
  cases i with
  | grp L =>
    simp only [exec, execGrp, atGroup_eq_of_sameOperation h hd, reinserted_eq_of_sameOperation h hd]
    split
    · split
      · exact copyGroup_follows h hd L _
      · exact follows_refused _ _
    · exact follows_refused _ _
  | grpf =>
    simp only [exec, execGrpf, atGroup_eq_of_sameOperation h hd]
    split
    · exact copyGroup_follows h hd _ _
    · exact follows_refused _ _
  | rsv0 =>
    simp only [exec, execRsv0, atGroup_eq_of_sameOperation h hd]
    split
    · exact raiseCorruptFrame_follows h.operands h.cmdOp _
    · exact follows_refused _ _
  | term =>
    simp only [exec, execTerm, atTerm_eq_of_sameOperation h hd]
    split
    · exact follows_next h.setDoneOk
    · exact follows_refused _ _
  | encode | decode | split | chunk | pack | scan => simp [isHostCommand] at hi

end decoder

/-! ### The engine's step and runs -/

theorem engineStep_follows {s t : State} (h : SameOperation s t) : Follows (engineStep s) (engineStep t) := by
  simp only [engineStep, h.phase, h.cmdOp]
  split
  · rename_i hbusy
    split
    · rename_i hop
      exact encoderStep_follows h (by simp [State.encoding, hbusy, hop])
    · rename_i hop
      have hd : s.decoding = true := by simp [State.decoding, hbusy, hop]
      rw [fetch_eq_of_sameOperation h hd]
      exact follows_andThen_value fun i hi => exec_frame_follows h hd i (fetch_frame s i hi)
  · exact follows_next h

theorem step_follows {s t : State} (h : SameOperation s t) : Follows (step s) (step t) := by
  obtain ⟨hs, ht, -⟩ := h.operands
  rw [step_of_idle_script hs, step_of_idle_script ht]
  exact engineStep_follows h

theorem runSteps_follows (k : Nat) {s t : State} (h : SameOperation s t) : Follows (runSteps k s) (runSteps k t) := by
  induction k generalizing s t with
  | zero => exact follows_next h
  | succ k ih =>
    rw [runSteps_succ, runSteps_succ]
    exact follows_andThen (step_follows h) fun _ _ h' => ih h'

/-! ### The starts -/

section starts
variable {s t : State} (h : sameOperands s t)
include h

/-- The encoder's start gives every register an ENCODE looks at its value (R106). -/
theorem startEncoder_sameOperation :
    SameOperation (s.startOperation .encode).startEncoder (t.startOperation .encode).startEncoder where
  operands := h
  status := ⟨rfl, rfl, rfl, rfl⟩
  outIdx := rfl
  outBuf := rfl
  encoder := fun _ => ⟨rfl, rfl⟩
  decoder := fun hd => by simp [State.decoding] at hd

/-- The decoder's start gives every register a DECODE looks at its value (R124). -/
theorem startDecoder_sameOperation :
    SameOperation (s.startOperation .decode).startDecoder (t.startOperation .decode).startDecoder where
  operands := h
  status := ⟨rfl, rfl, rfl, rfl⟩
  outIdx := rfl
  outBuf := rfl
  encoder := fun he => by simp [State.encoding] at he
  decoder := fun _ => ⟨rfl, congrArg (· - 1) (inLen_eq_of_sameOperands h)⟩

theorem beginDecode_follows :
    Follows (beginDecode (s.startOperation .decode)) (beginDecode (t.startOperation .decode)) := by
  have hstart : sameOperands (s.startOperation .decode) (t.startOperation .decode) := h
  simp only [beginDecode, readIn_eq_of_sameOperands hstart, cfgDelim_eq_of_sameOperands hstart,
    inLen_eq_of_sameOperands hstart]
  split
  · exact raiseCorruptFrame_follows hstart rfl _
  · refine follows_andThen_value fun v _ => ?_
    split
    · exact follows_next (startDecoder_sameOperation h)
    · exact raiseCorruptFrame_follows hstart rfl _

theorem launch_follows {op : Op} {body : State → Host.Outcome State Fault Refusal} (hs : s.phase ≠ .busy)
    (ht : t.phase ≠ .busy) (hbody : Follows (body (s.startOperation op)) (body (t.startOperation op))) :
    Follows (launch op body s) (launch op body t) := by
  simp only [launch, hs, ht, if_false, tooLong_eq_of_sameOperands h]
  split
  · exact follows_refused _ _
  · exact hbody

theorem exec_start_follows {c : Instr} (hc : c = .encode ∨ c = .decode) (hs : s.phase ≠ .busy) (ht : t.phase ≠ .busy) :
    Follows (exec c s) (exec c t) := by
  rcases hc with rfl | rfl
  · exact launch_follows (body := fun u => .next u.startEncoder) h hs ht (follows_next (startEncoder_sameOperation h))
  · exact launch_follows h hs ht (beginDecode_follows h)

end starts

/-- Settles O40: the two starts lead to the same point of the same operation, and runs from there stay together. -/
theorem nothingCarriesOver : Obligations.NothingCarriesOver := by
  intro c s t s1 hc hs ht hst hexec
  obtain ⟨t1, ht1, h1⟩ := exec_start_follows hst hc hs ht s1 hexec
  refine ⟨t1, ht1, fun k u hu => ?_⟩
  obtain ⟨v, hv, huv⟩ := runSteps_follows k h1 u hu
  exact ⟨v, hv, huv.sameResult⟩

end Sys2Proof.Machine

/-! ## TERM, the end of a DECODE (42_decoder.md R131) -/

namespace Sys2Proof.Machine

theorem exec_term_of_atTerm {s : State} (h : s.atTerm = true) : exec .term s = .next s.setDoneOk := by
  simp only [exec, execTerm, h, if_true]

/-- Of all that a DECODE command can do, only the decoder's start (R124) makes the block BUSY. -/
theorem eq_startDecoder_of_exec_decode {s t : State} (h : exec .decode s = .next t) (hs : s.phase ≠ .busy)
    (ht : t.phase = .busy) : t = (s.startOperation .decode).startDecoder := by
  obtain ⟨hbusy, -⟩ | ⟨-, -, hbegin⟩ := launch_cases .decode beginDecode s t h
  · exact absurd hbusy hs
  · obtain ⟨-, rfl⟩ | ⟨v, -, -, -, rfl⟩ | ⟨-, -, hstart⟩ := beginDecode_cases _ _ hbegin
    · simp at ht
    · simp at ht
    · exact hstart

/-- The decoder's start stands at TERM when the delimiter is the whole frame. -/
theorem startDecoder_atTerm {s : State} (h : s.inLen = 1) :
    (s.startOperation .decode).startDecoder.atTerm = true :=
  (atTerm_iff _).mpr ⟨rfl, rfl, by simp [h]⟩

/-- The frame that is only its delimiter has no group (R131). -/
theorem decodeFrame_delim (D : Byte) : decodeFrame D [D] = .ok [] := by
  simp only [decodeFrame, List.getLast?_singleton, if_true]
  exact decodeLoop_end D [D] _ _ 0 [] (Nat.le_refl 0)

/-- Settles O13: TERM needs only its place, and a one-byte frame is there from the start. -/
theorem termEndsTheOperation : Obligations.TermEndsTheOperation := by
  refine ⟨fun s hterm => exec_term_of_atTerm hterm, fun s t hs hlen hexec ht => ?_, decodeFrame_delim⟩
  obtain rfl := eq_startDecoder_of_exec_decode hexec hs ht
  exact ⟨startDecoder_atTerm hlen, rfl⟩

end Sys2Proof.Machine

/-! ## Frames and their listings (30_encoding.md R60, R61, R62, R74) -/

namespace Sys2Proof

/-! ### The length byte of a group -/

theorem decodeGroupByte_of_grp_wf {L : Byte} (h : (Instr.grp L).wf = true) : decodeGroupByte L = .grp L := by
  have hL : 1 ≤ L.toNat ∧ L.toNat ≤ 254 := by simpa [Instr.wf] using h
  have h0 : L ≠ 0 := by rintro rfl; simp at hL
  have h255 : L ≠ Config.full := by rintro rfl; simp [Config.full] at hL
  rw [decodeGroupByte, if_neg h0, if_neg h255]

theorem decodeGroupByte_ne_term (L : Byte) : decodeGroupByte L ≠ .term := by
  simp only [decodeGroupByte]
  split
  · simp
  · split <;> simp

theorem toNat_ne_zero {L : Byte} (h : L ≠ 0) : L.toNat ≠ 0 :=
  fun h' => h (BitVec.eq_of_toNat_eq (by simpa using h'))

/-- A length byte other than 0 is the GRPF's or a legal GRP's. -/
theorem decodeGroupByte_cases {L : Byte} (h0 : L ≠ 0) :
    (L = Config.full ∧ decodeGroupByte L = .grpf) ∨ ((Instr.grp L).wf = true ∧ decodeGroupByte L = .grp L) := by
  by_cases hfull : L = Config.full
  · subst hfull
    exact .inl ⟨rfl, rfl⟩
  · have hne : L.toNat ≠ 255 := fun h => hfull (BitVec.eq_of_toNat_eq (by simpa [Config.full] using h))
    have hpos := toNat_ne_zero h0
    have hwf : (Instr.grp L).wf = true := by
      simp only [Instr.wf, Bool.and_eq_true, decide_eq_true_eq]
      have := L.isLt
      omega
    exact .inr ⟨hwf, decodeGroupByte_of_grp_wf hwf⟩

/-! ### One line -/

/-- A well-formed line is a length byte, not 0, that is dispatched to the line's instruction and counts its data (R60, R61). -/
theorem lineWf_iff (D : Byte) (l : Line) :
    lineWf l = true ↔ ∃ L : Byte, L ≠ 0 ∧ l.instr = decodeGroupByte L ∧ l.data.length + 1 = L.toNat ∧
      lineBytes D l = L :: l.data := by
  obtain ⟨instr, data⟩ := l
  constructor
  · intro h
    cases instr with
    | grp L =>
      obtain ⟨hwf, hlen⟩ : (Instr.grp L).wf = true ∧ data.length + 1 = L.toNat := by simpa [lineWf] using h
      refine ⟨L, ?_, (decodeGroupByte_of_grp_wf hwf).symm, hlen, rfl⟩
      rintro rfl
      simp at hlen
    | grpf => exact ⟨Config.full, by decide, rfl, by simpa [lineWf] using h, rfl⟩
    | rsv0 | term | encode | decode | split | chunk | pack | scan => simp [lineWf] at h
  · rintro ⟨L, h0, hinstr, hlen, -⟩
    obtain ⟨rfl, hd⟩ | ⟨hwf, hd⟩ := decodeGroupByte_cases h0
    · obtain rfl : instr = .grpf := hinstr.trans hd
      simpa [lineWf] using hlen
    · obtain rfl : instr = .grp L := hinstr.trans hd
      simp only [Instr.wf, Bool.and_eq_true, decide_eq_true_eq] at hwf
      simp [lineWf, Instr.wf, hwf, hlen]

theorem assemble_cons (D : Byte) (l : Line) (ls : List Line) : assemble D (l :: ls) = lineBytes D l ++ assemble D ls := by
  simp [assemble]

theorem assemble_ne_nil (D : Byte) (ls : List Line) : assemble D ls ≠ [] := by simp [assemble]

/-! ### Reading a listing group after group -/

/-- One group with something behind it: its data is cut off, and the listing goes on behind (R61). -/
theorem disassemble_group {L : Byte} (h0 : L ≠ 0) {data rest : List Byte} (hlen : data.length + 1 = L.toNat)
    (hrest : rest ≠ []) (n : Nat) :
    disassemble (n + 1) (L :: (data ++ rest)) =
      (disassemble n rest).map (⟨decodeGroupByte L, data⟩ :: ·) := by
  obtain ⟨b, bs, hcons⟩ := List.exists_cons_of_ne_nil (List.append_ne_nil_of_right_ne_nil data hrest)
  have hcut : L.toNat - 1 = data.length := by omega
  have hroom : ¬ (b :: bs).length < L.toNat := by
    have := List.length_pos_of_ne_nil hrest
    rw [← hcons, List.length_append]
    omega
  rw [hcons, disassemble, if_neg h0, if_neg hroom, ← hcons, hcut, List.drop_left, List.take_left]

/-- Everything a listing can be: the terminal delimiter alone, or a group and the listing of the bytes behind it. -/
theorem disassemble_cases {n : Nat} {f : List Byte} {ls : List Line} (h : disassemble n f = some ls) :
    (∃ D, f = [D] ∧ ls = [⟨.term, []⟩]) ∨
    ∃ (m : Nat) (L : Byte) (data rest : List Byte) (ls' : List Line), n = m + 1 ∧ L ≠ 0 ∧ data.length + 1 = L.toNat ∧
      f = L :: (data ++ rest) ∧ disassemble m rest = some ls' ∧ ls = ⟨decodeGroupByte L, data⟩ :: ls' := by
  match n, f, h with
  | 0, [], h | _ + 1, [], h => simp [disassemble] at h
  | 0, [D], h | _ + 1, [D], h => exact .inl ⟨D, rfl, by simpa [disassemble] using h.symm⟩
  | 0, _ :: _ :: _, h => simp [disassemble] at h
  | m + 1, L :: b :: bs, h =>
    rw [disassemble] at h
    split at h
    · simp at h
    · rename_i h0
      split at h
      · simp at h
      · rename_i hroom
        obtain ⟨ls', hls', rfl⟩ := Option.map_eq_some_iff.mp h
        have hpos := toNat_ne_zero h0
        exact .inr ⟨m, L, _, _, ls', rfl, h0, by rw [List.length_take]; omega, by rw [List.take_append_drop], hls', rfl⟩

/-- Settles O4, by induction on the groups: each is read back by its length byte alone. -/
theorem disassembleOfAssemble : Obligations.DisassembleOfAssemble := by
  intro D ls n hwf hn
  induction ls generalizing n with
  | nil => cases n <;> rfl
  | cons l ls ih =>
    obtain ⟨m, rfl⟩ := Nat.exists_eq_add_of_lt hn
    obtain ⟨L, h0, hinstr, hlen, hbytes⟩ := (lineWf_iff D l).mp (hwf l (by simp))
    rw [assemble_cons, hbytes, List.cons_append, disassemble_group h0 hlen (assemble_ne_nil D ls),
      ih _ (fun l' h' => hwf l' (by simp [h'])) (by omega), ← hinstr]
    rfl

/-- Settles O5, by induction on the number of groups that may be read. -/
theorem assembleOfDisassemble : Obligations.AssembleOfDisassemble := by
  intro n
  induction n with
  | zero =>
    intro f ls h
    obtain ⟨D, rfl, rfl⟩ | ⟨m, _, _, _, _, hm, _⟩ := disassemble_cases h
    · exact ⟨[], D, rfl, by simp, rfl⟩
    · omega
  | succ n ih =>
    intro f ls h
    obtain ⟨D, rfl, rfl⟩ | ⟨m, L, data, rest, ls', hm, h0, hlen, rfl, hrest, rfl⟩ := disassemble_cases h
    · exact ⟨[], D, rfl, by simp, rfl⟩
    · obtain rfl : n = m := by omega
      obtain ⟨gs, D, rfl, hgs, rfl⟩ := ih _ _ hrest
      have hbytes : lineBytes D ⟨decodeGroupByte L, data⟩ = L :: data := by
        obtain ⟨rfl, hd⟩ | ⟨-, hd⟩ := decodeGroupByte_cases h0 <;> rw [hd] <;> rfl
      have hline := (lineWf_iff D ⟨decodeGroupByte L, data⟩).mpr ⟨L, h0, rfl, hlen, hbytes⟩
      refine ⟨⟨decodeGroupByte L, data⟩ :: gs, D, rfl, ?_, ?_⟩
      · simpa [hline] using hgs
      · rw [assemble_cons, hbytes, List.cons_append]

/-! ### One instruction -/

/-- Settles O1: the bytes are fixed, and the decoder computes. -/
theorem writtenOutBytesDecode : Obligations.WrittenOutBytesDecode := by
  unfold Obligations.WrittenOutBytesDecode
  decide

/-- Settles O2: only the number of bytes decides, and no length byte is dispatched to TERM. -/
theorem termIsRecognisedByPosition : Obligations.TermIsRecognisedByPosition := by
  refine fun v => ⟨rfl, fun w bs h => ?_⟩
  exact decodeGroupByte_ne_term v (Except.ok.inj h)

/-- Every instruction's encodings decode to it. -/
theorem encodingAgrees (i : Instr) : Laws.EncodingAgrees.Statement i := by
  cases i with
  | grp L => exact Laws.EncodingAgrees.grp L
  | grpf => exact Laws.EncodingAgrees.grpf
  | rsv0 => exact Laws.EncodingAgrees.rsv0
  | term => exact Laws.EncodingAgrees.term
  | encode => exact Laws.EncodingAgrees.encode
  | decode => exact Laws.EncodingAgrees.decode
  | split b D => exact Laws.EncodingAgrees.split b D
  | chunk r => exact Laws.EncodingAgrees.chunk r
  | pack c => exact Laws.EncodingAgrees.pack c
  | scan D => exact Laws.EncodingAgrees.scan D

/-- The instructions with a CMD.OP value are well formed with every operand. -/
theorem wf_of_encodeCmd {i : Instr} {op : BitVec 1} (h : encodeCmd i = some op) : i.wf = true := by
  cases i with
  | encode | decode => rfl
  | grp | grpf | rsv0 | term | split | chunk | pack | scan => simp [encodeCmd] at h

/-- Settles O3. -/
theorem decodeOfEncode : Obligations.DecodeOfEncode := by
  refine ⟨fun D i w rest hwf hw hrest => ?_, fun i op h => ?_, by decide⟩
  · exact (encodingAgrees i hwf).1 D w rest hw hrest
  · exact (encodingAgrees i (wf_of_encodeCmd h)).2 op h

end Sys2Proof

/-! ## The units: the runs of a buffer, the chunks of a run, the group of a chunk (40_segmentation.md, 41_encoder.md R101) -/

namespace Sys2Proof.Machine

theorem maxChunk_eq : Config.maxChunk = 254 := rfl

/-! ### The runs of a buffer -/

@[simp] theorem joinRuns_single (D : Byte) (r : List Byte) : joinRuns D [r] = r := rfl

theorem joinRuns_cons (D : Byte) (r : List Byte) {rs : List (List Byte)} (h : rs ≠ []) :
    joinRuns D (r :: rs) = r ++ D :: joinRuns D rs := by
  obtain ⟨r', rs', rfl⟩ := List.exists_cons_of_ne_nil h
  simp [joinRuns]

/-- The delimiter between two runs, counted from the bytes' side. -/
theorem joinRuns_length (D : Byte) {rs : List (List Byte)} (h : rs ≠ []) :
    (joinRuns D rs).length + 1 = (rs.map List.length).sum + rs.length := by
  induction rs with
  | nil => exact absurd rfl h
  | cons r rs ih =>
    by_cases hrs : rs = []
    · simp [hrs]
    · have := ih hrs
      simp only [joinRuns_cons D r hrs, List.length_append, List.length_cons, List.map_cons, List.sum_cons]
      omega

/-- The first byte decides whether the first run is empty or goes on (R81). -/
theorem splitRuns_cases (D x : Byte) (xs : List Byte) :
    (x = D ∧ splitRuns D (x :: xs) = [] :: splitRuns D xs) ∨
    ∃ r rs, x ≠ D ∧ splitRuns D xs = r :: rs ∧ splitRuns D (x :: xs) = (x :: r) :: rs := by
  by_cases hx : x = D
  · exact .inl ⟨hx, by rw [hx, splitRuns_delim]⟩
  · obtain ⟨r, rs, hr⟩ := List.exists_cons_of_ne_nil (splitRuns_ne_nil D xs)
    exact .inr ⟨r, rs, hx, hr, splitRuns_data hx hr⟩

theorem splitRuns_length (D : Byte) (b : List Byte) : (splitRuns D b).length = b.count D + 1 := by
  induction b with
  | nil => rfl
  | cons x xs ih =>
    obtain ⟨rfl, h⟩ | ⟨r, rs, hx, hr, h⟩ := splitRuns_cases D x xs
    · rw [h, List.length_cons, ih, List.count_cons_self]
    · rw [hr, List.length_cons] at ih
      rw [h, List.length_cons, ih, List.count_cons_of_ne hx]

theorem joinRuns_splitRuns (D : Byte) (b : List Byte) : joinRuns D (splitRuns D b) = b := by
  induction b with
  | nil => rfl
  | cons x xs ih =>
    obtain ⟨rfl, h⟩ | ⟨r, rs, hx, hr, h⟩ := splitRuns_cases D x xs
    · rw [h, joinRuns_cons _ _ (splitRuns_ne_nil _ xs), ih, List.nil_append]
    · rw [hr] at ih
      rw [h]
      cases rs <;> simpa [joinRuns] using ih

theorem not_mem_of_mem_splitRuns {D : Byte} {b r : List Byte} (h : r ∈ splitRuns D b) : D ∉ r := by
  induction b generalizing r with
  | nil => simp_all
  | cons x xs ih =>
    obtain ⟨rfl, hs⟩ | ⟨r', rs, hx, hr, hs⟩ := splitRuns_cases D x xs
    · rw [hs] at h
      obtain rfl | h := List.mem_cons.mp h
      · simp
      · exact ih h
    · rw [hs] at h
      obtain rfl | h := List.mem_cons.mp h
      · simp [Ne.symm hx, ih (hr ▸ List.mem_cons_self)]
      · exact ih (hr ▸ List.mem_cons_of_mem _ h)

/-- The two properties of R82 determine the list of runs. -/
theorem splitRuns_joinRuns {D : Byte} {rs : List (List Byte)} (h : rs ≠ []) (hD : ∀ r ∈ rs, D ∉ r) :
    splitRuns D (joinRuns D rs) = rs := by
  induction rs with
  | nil => exact absurd rfl h
  | cons r rs ih =>
    obtain ⟨hr, hrs'⟩ := List.forall_mem_cons.mp hD
    by_cases hrs : rs = []
    · subst hrs
      exact splitRuns_single hr
    · rw [joinRuns_cons D r hrs, splitRuns_run hr, ih hrs hrs']

/-! ### Where a run begins and ends -/

theorem delimiterPositions_cons (D x : Byte) (xs : List Byte) :
    delimiterPositions D (x :: xs) = (if x = D then [0] else []) ++ (delimiterPositions D xs).map (· + 1) := by
  simp only [delimiterPositions, List.length_cons, List.range_succ_eq_map, List.filter_cons, List.filter_map]
  split <;> simp_all [Function.comp_def]

theorem runEnd_delim_zero (D : Byte) (xs : List Byte) : runEnd D (D :: xs) 0 = 0 := by
  simp [runEnd, delimiterPositions_cons]

theorem runEnd_delim_succ (D : Byte) (xs : List Byte) (j : Nat) :
    runEnd D (D :: xs) (j + 1) = runEnd D xs j + 1 := by
  simp only [runEnd, delimiterPositions_cons, if_true, List.singleton_append, List.getD_cons_succ, List.length_cons]
  exact List.getD_map _ _ (f := (· + 1))

theorem runEnd_data {D x : Byte} (h : x ≠ D) (xs : List Byte) (j : Nat) :
    runEnd D (x :: xs) j = runEnd D xs j + 1 := by
  simp only [runEnd, delimiterPositions_cons, h, if_false, List.nil_append, List.length_cons]
  exact List.getD_map _ _ (f := (· + 1))

theorem runBegin_zero (D : Byte) (b : List Byte) : runBegin D b 0 = 0 := rfl

/-- A run but the first begins behind the end of the one before it. -/
theorem runBegin_succ (D : Byte) (b : List Byte) (j : Nat) : runBegin D b (j + 1) = runEnd D b j + 1 := rfl

theorem runBegin_delim_succ (D : Byte) (xs : List Byte) (j : Nat) :
    runBegin D (D :: xs) (j + 1) = runBegin D xs j + 1 := by
  cases j with
  | zero => rw [runBegin_succ, runEnd_delim_zero, runBegin_zero]
  | succ j => rw [runBegin_succ, runEnd_delim_succ, runBegin_succ]

/-- Run `j` is the slice of R81. -/
theorem splitRuns_getElem (D : Byte) (b : List Byte) (j : Nat) (h : j < (splitRuns D b).length) :
    (splitRuns D b)[j] = (b.take (runEnd D b j)).drop (runBegin D b j) := by
  induction b generalizing j with
  | nil => simp
  | cons x xs ih =>
    obtain ⟨rfl, hs⟩ | ⟨r, rs, hx, hr, hs⟩ := splitRuns_cases D x xs
    · simp only [hs] at h ⊢
      cases j with
      | zero => simp [runEnd_delim_zero]
      | succ j => simpa [runEnd_delim_succ, runBegin_delim_succ] using ih j (by simpa using h)
    · simp only [hr] at ih
      simp only [hs] at h ⊢
      have := ih j (by simpa using h)
      rw [runEnd_data hx]
      cases j with
      | zero => simpa [runBegin_zero] using this
      | succ j => simpa [runBegin_succ, runEnd_data hx] using this

/-- Settles O27: the runs of `splitRuns`, which the two properties of R82 determine. -/
theorem splitGivesTheRuns : Obligations.SplitGivesTheRuns := by
  refine fun s b D => ⟨splitRuns D b, rfl, splitRuns_length D b, splitRuns_getElem D b, joinRuns_splitRuns D b,
    fun r => not_mem_of_mem_splitRuns, ?_⟩
  rintro rs hne rfl hD
  exact (splitRuns_joinRuns hne hD).symm

/-! ### The chunks of a run -/

/-- A run is short, one full chunk, or a full chunk with a run behind it. -/
theorem run_induction {motive : List Byte → Prop} (short : ∀ r, r.length < Config.maxChunk → motive r)
    (full : ∀ r, r.length = Config.maxChunk → motive r)
    (long : ∀ r, Config.maxChunk < r.length → motive (r.drop Config.maxChunk) → motive r) (r : List Byte) :
    motive r := by
  obtain h | h | h := lt_trichotomy r.length Config.maxChunk
  · exact short r h
  · exact full r h
  · exact long r h (run_induction short full long (r.drop Config.maxChunk))
termination_by r.length
decreasing_by simp only [List.length_drop, maxChunk_eq] at h ⊢; omega

theorem chunkRun_length (tail : ChunkTail) (r : List Byte) :
    (chunkRun tail r).length = chunkCount tail r.length := by
  simp [chunkRun]

theorem chunkRun_ne_nil (tail : ChunkTail) (r : List Byte) : chunkRun tail r ≠ [] := by
  induction r using run_induction with
  | short r h => simp [chunkRun_short tail h]
  | full r h => simp [chunkRun_full tail h]
  | long r h => simp [chunkRun_long tail h]

theorem chunkRun_flatten (tail : ChunkTail) (r : List Byte) : (chunkRun tail r).flatten = r := by
  induction r using run_induction with
  | short r h => simp [chunkRun_short tail h]
  | full r h => cases tail <;> simp [chunkRun_full _ h]
  | long r h ih => rw [chunkRun_long tail h, List.flatten_cons, ih, List.take_append_drop]

theorem length_le_of_mem_chunkRun {tail : ChunkTail} {r c : List Byte} (h : c ∈ chunkRun tail r) :
    c.length ≤ Config.maxChunk := by
  obtain ⟨t, -, rfl⟩ := List.mem_map.mp h
  exact List.length_take_le _ _

theorem length_eq_of_mem_chunkRun_dropLast {tail : ChunkTail} {r c : List Byte} (h : c ∈ (chunkRun tail r).dropLast) :
    c.length = Config.maxChunk := by
  induction r using run_induction with
  | short r hr => simp [chunkRun_short tail hr] at h
  | full r hr =>
    cases tail with
    | plain => simp [chunkRun_full _ hr] at h
    | pad =>
      obtain rfl : c = r := by simpa [chunkRun_full _ hr] using h
      exact hr
  | long r hr ih =>
    rw [chunkRun_long tail hr, List.dropLast_cons_of_ne_nil (chunkRun_ne_nil tail _)] at h
    obtain rfl | h := List.mem_cons.mp h
    · rw [List.length_take]
      omega
    · exact ih h

/-- Settles O28. -/
theorem chunkGivesTheChunks : Obligations.ChunkGivesTheChunks := by
  refine fun s r => ⟨chunkRun s.chunkTail r, rfl, fun h => ?_, fun h => ?_, fun t h => ?_, chunkRun_flatten _ r,
    fun c => length_le_of_mem_chunkRun, fun c => length_eq_of_mem_chunkRun_dropLast⟩
  · rw [chunkRun_length, h]
    rfl
  · rw [chunkRun_length, h]
    rfl
  · simp only [chunkRun, List.getElem_map, List.getElem_range, maxChunk_eq]
    rw [List.take_drop, show 254 * t + 254 = 254 * (t + 1) by omega, List.take_eq_take_min]

/-- The two settings differ by the empty chunk behind a run of full chunks only (R88). -/
theorem chunkRun_pad (r : List Byte) :
    chunkRun .pad r =
      chunkRun .plain r ++ if 0 < r.length ∧ r.length % Config.maxChunk = 0 then [[]] else [] := by
  induction r using run_induction with
  | short r h =>
    have hmod := Nat.mod_eq_of_lt h
    rw [chunkRun_short _ h, chunkRun_short _ h, if_neg (by omega), List.append_nil]
  | full r h => simp [chunkRun_full _ h, h, maxChunk_eq]
  | long r h ih =>
    rw [chunkRun_long _ h, chunkRun_long _ h, ih, List.cons_append, List.length_drop, ← Nat.mod_eq_sub_mod h.le]
    simp only [Nat.sub_pos_of_lt h, Nat.zero_lt_of_lt h]

/-- Settles O29. -/
theorem chunkTailsDiffer : Obligations.ChunkTailsDiffer := chunkRun_pad

/-! ### The group of a chunk -/

/-- A chunk of at most 254 bytes is well formed for PACK (R100). -/
theorem pack_wf_iff (c : List Byte) : (Instr.pack c).wf = true ↔ c.length ≤ Config.maxChunk := by simp [Instr.wf]

theorem exec_pack {c : List Byte} (h : c.length ≤ Config.maxChunk) (s : State) :
    exec (.pack c) s = .next (s.withUnit (.group (packChunk c))) := by
  simp only [exec, execPack, (pack_wf_iff c).mpr h, if_true]

/-- Settles O30. -/
theorem packGivesTheGroup : Obligations.PackGivesTheGroup := by
  intro s c hc
  have hL : (BitVec.ofNat 8 (c.length + 1)).toNat = c.length + 1 := packChunk_head_toNat hc
  exact ⟨BitVec.ofNat 8 (c.length + 1), exec_pack hc s, hL, by omega, by omega, rfl⟩

end Sys2Proof.Machine

/-! ## The laws of ENCODE and DECODE (44_laws.md)

A frame is a list of chunks, packed one behind the other. What DECODE makes of it is said once for any list of chunks
(`joinChunks`); the round trips follow from what a run's chunks join to under either CHUNK_TAIL. -/

namespace Sys2Proof.Machine

/-! ### The chunks of a buffer -/

theorem length_le_of_mem_allChunks {tail : ChunkTail} {D : Byte} {b c : List Byte} (h : c ∈ allChunks tail D b) :
    c.length ≤ Config.maxChunk := by
  obtain ⟨r, -, hc⟩ := List.mem_flatMap.mp h
  exact length_le_of_mem_chunkRun hc

theorem not_mem_of_mem_allChunks {tail : ChunkTail} {D : Byte} {b c : List Byte} (h : c ∈ allChunks tail D b) :
    D ∉ c := by
  obtain ⟨r, hr, hc⟩ := List.mem_flatMap.mp h
  intro hD
  have : D ∈ (chunkRun tail r).flatten := List.mem_flatten.mpr ⟨c, hc, hD⟩
  rw [chunkRun_flatten] at this
  exact not_mem_of_mem_splitRuns hr this

theorem allChunks_of_not_mem {D : Byte} {b : List Byte} (h : D ∉ b) (tail : ChunkTail) :
    allChunks tail D b = chunkRun tail b := by
  simp [allChunks, splitRuns_single h]

/-- Without full runs the two settings give the same chunks (R170). -/
theorem allChunks_eq_of_noFullRun {D : Byte} {b : List Byte} (h : noFullRun D b) :
    allChunks .plain D b = allChunks .pad D b :=
  List.flatMap_congr fun r hr => by rw [chunkRun_pad, if_neg (h r hr), List.append_nil]

/-! ### The buffer that a list of chunks decodes to -/

/-- What DECODE gives for the groups of `cs`: a delimiter behind every chunk but the last, unless it is full (R128, R130). -/
def joinChunks (D : Byte) : List (List Byte) → List Byte
  | [] => []
  | [c] => c
  | c :: c' :: cs => c ++ (if c.length < Config.maxChunk then [D] else []) ++ joinChunks D (c' :: cs)

theorem joinChunks_cons (D : Byte) (c : List Byte) {cs : List (List Byte)} (h : cs ≠ []) :
    joinChunks D (c :: cs) = c ++ (if c.length < Config.maxChunk then [D] else []) ++ joinChunks D cs := by
  obtain ⟨c', cs', rfl⟩ := List.exists_cons_of_ne_nil h
  rfl

theorem flatMap_packChunk_length (cs : List (List Byte)) :
    (cs.flatMap packChunk).length = cs.flatten.length + cs.length := by
  induction cs with
  | nil => rfl
  | cons c cs ih =>
    simp only [List.flatMap_cons, List.length_append, ih, packChunk_length, List.flatten_cons, List.length_cons]
    omega

theorem flatMap_packChunk_eq_nil (cs : List (List Byte)) : cs.flatMap packChunk = [] ↔ cs = [] := by
  cases cs <;> simp [packChunk]

/-- One group of a frame in the decoder's loop: its chunk is appended, and a delimiter unless it is the last or full. -/
theorem decodeLoop_packChunk (D : Byte) (pre suf : List Byte) {c : List Byte} (hc : c.length ≤ Config.maxChunk) (n : Nat)
    (out : List Byte) :
    decodeLoop D (pre ++ packChunk c ++ suf ++ [D]) (pre ++ packChunk c ++ suf).length (n + 1) pre.length out =
      decodeLoop D (pre ++ packChunk c ++ suf ++ [D]) (pre ++ packChunk c ++ suf).length n (pre ++ packChunk c).length
        (out ++ c ++ if suf ≠ [] ∧ c.length < Config.maxChunk then [D] else []) := by
  have hL : (BitVec.ofNat 8 (c.length + 1)).toNat = c.length + 1 := packChunk_head_toNat hc
  have last : (pre ++ packChunk c ++ suf).length = pre.length + (c.length + 1) + suf.length := by simp [Nat.add_assoc]
  have behind : (pre ++ packChunk c).length = pre.length + (c.length + 1) := by simp
  have data : ((pre ++ packChunk c ++ suf ++ [D]).drop (pre.length + 1)).take c.length = c := by simp [packChunk]
  have sep : pre.length + (c.length + 1) < (pre ++ packChunk c ++ suf).length ∧ c.length + 1 < 255 ↔
      suf ≠ [] ∧ c.length < Config.maxChunk := by
    rw [last, ← List.length_pos_iff, maxChunk_eq]
    omega
  rw [decodeLoop_group D _ _ n _ out (BitVec.ofNat 8 (c.length + 1)) (by omega) (by simp [packChunk]) (by omega)
    (by omega), hL, Nat.add_sub_cancel, data, behind]
  simp only [sep]

/-- The decoder's loop over the groups of `cs`, from any position of a frame that ends with them. -/
theorem decodeLoop_chunks (D : Byte) (pre : List Byte) (cs : List (List Byte)) (n : Nat) (out : List Byte)
    (hcs : ∀ c ∈ cs, c.length ≤ Config.maxChunk) (hn : cs.length ≤ n) :
    decodeLoop D (pre ++ cs.flatMap packChunk ++ [D]) (pre ++ cs.flatMap packChunk).length n pre.length out =
      .ok (out ++ joinChunks D cs) := by
  induction cs generalizing pre n out with
  | nil => simpa [joinChunks] using decodeLoop_end D _ _ n pre.length out (by simp)
  | cons c cs ih =>
    obtain ⟨hc, hcs⟩ := List.forall_mem_cons.mp hcs
    obtain ⟨m, rfl⟩ := Nat.exists_eq_add_of_lt hn
    rw [List.flatMap_cons, ← List.append_assoc, decodeLoop_packChunk D pre _ hc, ih _ _ _ hcs (by omega)]
    by_cases hlast : cs = []
    · simp [hlast, joinChunks]
    · have := mt (flatMap_packChunk_eq_nil cs).mp hlast
      simp only [joinChunks_cons D c hlast, ne_eq, this, not_false_iff, true_and, List.append_assoc]

theorem decodeFrame_chunks (D : Byte) {cs : List (List Byte)} (h : ∀ c ∈ cs, c.length ≤ Config.maxChunk) :
    decodeFrame D (cs.flatMap packChunk ++ [D]) = .ok (joinChunks D cs) := by
  have enough : cs.length ≤ (cs.flatMap packChunk ++ [D]).length := by
    rw [List.length_append, flatMap_packChunk_length]
    omega
  simpa [decodeFrame] using decodeLoop_chunks D [] cs _ [] h enough

theorem decodeFrame_encodeFrame (tail : ChunkTail) (D : Byte) (b : List Byte) :
    decodeFrame D (encodeFrame tail D b) = .ok (joinChunks D (allChunks tail D b)) :=
  decodeFrame_chunks D fun _ => length_le_of_mem_allChunks

/-! ### What the chunks of the runs join to -/

theorem joinChunks_chunkRun (tail : ChunkTail) (D : Byte) (r : List Byte) : joinChunks D (chunkRun tail r) = r := by
  induction r using run_induction with
  | short r h => rw [chunkRun_short tail h, joinChunks]
  | full r h => cases tail <;> simp [chunkRun_full _ h, joinChunks, h]
  | long r h ih =>
    rw [chunkRun_long tail h, joinChunks_cons D _ (chunkRun_ne_nil tail _), ih]
    simp [h.le]

/-- The delimiter behind a run is put back unless `plain` has closed the run with a full chunk (R168). -/
theorem joinChunks_chunkRun_append (tail : ChunkTail) (D : Byte) (r : List Byte) {rest : List (List Byte)}
    (hrest : rest ≠ []) :
    joinChunks D (chunkRun tail r ++ rest) =
      r ++ (if tail = .plain ∧ 0 < r.length ∧ r.length % Config.maxChunk = 0 then [] else [D]) ++ joinChunks D rest := by
  induction r using run_induction with
  | short r h =>
    have : ¬ (0 < r.length ∧ r.length % Config.maxChunk = 0) := by
      rw [Nat.mod_eq_of_lt h]
      omega
    simp [chunkRun_short tail h, joinChunks_cons D r hrest, h, this]
  | full r h =>
    cases tail with
    | plain => simp [chunkRun_full _ h, joinChunks_cons D _ hrest, h, maxChunk_eq]
    | pad => simp [chunkRun_full _ h, joinChunks, joinChunks_cons D _ hrest, h, maxChunk_eq]
  | long r h ih =>
    have hlen : (0 < (r.drop Config.maxChunk).length ∧ (r.drop Config.maxChunk).length % Config.maxChunk = 0) ↔
        (0 < r.length ∧ r.length % Config.maxChunk = 0) := by
      rw [List.length_drop, ← Nat.mod_eq_sub_mod h.le]
      omega
    rw [chunkRun_long tail h, List.cons_append, joinChunks_cons D _ (by simp [hrest]), ih]
    simp only [hlen, ← List.append_assoc]
    simp [h.le]

theorem flatMap_chunkRun_ne_nil (tail : ChunkTail) {rs : List (List Byte)} (h : rs ≠ []) :
    rs.flatMap (chunkRun tail) ≠ [] := by
  obtain ⟨r, rs, rfl⟩ := List.exists_cons_of_ne_nil h
  simp [chunkRun_ne_nil]

theorem joinLossy_cons (D : Byte) (r : List Byte) {rs : List (List Byte)} (h : rs ≠ []) :
    joinLossy D (r :: rs) =
      r ++ (if 0 < r.length ∧ r.length % Config.maxChunk = 0 then [] else [D]) ++ joinLossy D rs := by
  obtain ⟨r', rs', rfl⟩ := List.exists_cons_of_ne_nil h
  rfl

theorem joinChunks_plain (D : Byte) {rs : List (List Byte)} (h : rs ≠ []) :
    joinChunks D (rs.flatMap (chunkRun .plain)) = joinLossy D rs := by
  induction rs with
  | nil => exact absurd rfl h
  | cons r rs ih =>
    by_cases hrs : rs = []
    · simp [hrs, joinChunks_chunkRun, joinLossy]
    · simp [joinChunks_chunkRun_append _ D r (flatMap_chunkRun_ne_nil _ hrs), joinLossy_cons D r hrs, ih hrs]

theorem joinChunks_pad (D : Byte) {rs : List (List Byte)} (h : rs ≠ []) :
    joinChunks D (rs.flatMap (chunkRun .pad)) = joinRuns D rs := by
  induction rs with
  | nil => exact absurd rfl h
  | cons r rs ih =>
    by_cases hrs : rs = []
    · simp [hrs, joinChunks_chunkRun]
    · simp [joinChunks_chunkRun_append _ D r (flatMap_chunkRun_ne_nil _ hrs), joinRuns_cons D r hrs, ih hrs]

/-! ### The round trips -/

theorem decodeFrame_encodeFrame_pad (D : Byte) (b : List Byte) : decodeFrame D (encodeFrame .pad D b) = .ok b := by
  rw [decodeFrame_encodeFrame, allChunks, joinChunks_pad D (splitRuns_ne_nil D b), joinRuns_splitRuns]

/-- Settles O45: the chunks of `pad` keep the end of every run. -/
theorem roundTripUnderPad : Obligations.RoundTripUnderPad := by
  refine fun D => ⟨decodeFrame_encodeFrame_pad D, fun b c h => ?_⟩
  have := congrArg (decodeFrame D) h
  rw [decodeFrame_encodeFrame_pad, decodeFrame_encodeFrame_pad] at this
  exact DecodeResult.ok.inj this

theorem decodeFrame_encodeFrame_plain (D : Byte) (b : List Byte) :
    decodeFrame D (encodeFrame .plain D b) = .ok (joinLossy D (splitRuns D b)) := by
  rw [decodeFrame_encodeFrame, allChunks, joinChunks_plain D (splitRuns_ne_nil D b)]

theorem joinLossy_length_le (D : Byte) (rs : List (List Byte)) : (joinLossy D rs).length ≤ (joinRuns D rs).length := by
  induction rs with
  | nil => exact Nat.le_refl _
  | cons r rs ih =>
    by_cases hrs : rs = []
    · rw [hrs]
      exact Nat.le_refl _
    · rw [joinLossy_cons D r hrs, joinRuns_cons D r hrs]
      split <;> simp <;> omega

/-- Nothing is lost exactly when no run but the last is full: a lost delimiter is never made up for. -/
theorem joinLossy_eq_joinRuns_iff (D : Byte) (rs : List (List Byte)) :
    joinLossy D rs = joinRuns D rs ↔ ∀ r ∈ rs.dropLast, ¬ (0 < r.length ∧ r.length % Config.maxChunk = 0) := by
  induction rs with
  | nil => simp [joinLossy, joinRuns]
  | cons r rs ih =>
    by_cases hrs : rs = []
    · simp [hrs, joinLossy]
    · rw [joinLossy_cons D r hrs, joinRuns_cons D r hrs, List.dropLast_cons_of_ne_nil hrs, List.forall_mem_cons, ← ih]
      split
      · rename_i hfull
        have lost : joinLossy D rs ≠ D :: joinRuns D rs := fun h => by
          have hlen := congrArg List.length h
          have := joinLossy_length_le D rs
          rw [List.length_cons] at hlen
          omega
        simp [lost, hfull]
      · rename_i hfull
        simp [hfull]

/-- Settles O46. -/
theorem roundTripUnderPlain : Obligations.RoundTripUnderPlain := by
  refine fun D b => ⟨decodeFrame_encodeFrame_plain D b, ?_⟩
  rw [decodeFrame_encodeFrame_plain, DecodeResult.ok.injEq]
  conv_lhs => rhs; rw [← joinRuns_splitRuns D b]
  exact joinLossy_eq_joinRuns_iff D (splitRuns D b)

end Sys2Proof.Machine

/-! ## How long a frame is, and where its delimiter stands (44_laws.md sections 2 to 5) -/

namespace Sys2Proof.Machine

/-! ### The length of a frame -/

theorem buffer_length (D : Byte) (b : List Byte) :
    b.length = ((splitRuns D b).map List.length).sum + b.count D := by
  have := joinRuns_length D (splitRuns_ne_nil D b)
  rw [joinRuns_splitRuns, splitRuns_length] at this
  omega

/-- Each run costs its bytes and one length byte for each of its chunks. -/
theorem flatMap_chunkRun_length (tail : ChunkTail) (rs : List (List Byte)) :
    ((rs.flatMap (chunkRun tail)).flatMap packChunk).length =
      (rs.map List.length).sum + (rs.map fun r => chunkCount tail r.length).sum := by
  induction rs with
  | nil => rfl
  | cons r rs ih =>
    simp only [List.flatMap_cons, List.flatMap_append, List.length_append, ih, flatMap_packChunk_length,
      chunkRun_flatten, chunkRun_length, List.map_cons, List.sum_cons]
    omega

/-- A frame holds the data bytes, a length byte for each chunk, and the terminal delimiter. -/
theorem encodeFrame_length (tail : ChunkTail) (D : Byte) (b : List Byte) :
    (encodeFrame tail D b).length =
      (b.length - b.count D) + ((splitRuns D b).map fun r => chunkCount tail r.length).sum + 1 := by
  have := buffer_length D b
  rw [encodeFrame, allChunks, List.length_append, flatMap_chunkRun_length, List.length_singleton]
  omega

theorem one_le_chunkCount (tail : ChunkTail) (g : Nat) : 1 ≤ chunkCount tail g := by
  cases tail <;> simp [chunkCount]

theorem length_le_sum_chunkCount (tail : ChunkTail) (rs : List (List Byte)) :
    rs.length ≤ (rs.map fun r => chunkCount tail r.length).sum := by
  induction rs with
  | nil => exact Nat.le_refl _
  | cons r rs ih =>
    have := one_le_chunkCount tail r.length
    simp only [List.length_cons, List.map_cons, List.sum_cons]
    omega

/-- Every run has at least one chunk, and there is one run more than delimiters. -/
theorem length_add_two_le_encodeFrame_length (tail : ChunkTail) (D : Byte) (b : List Byte) :
    b.length + 2 ≤ (encodeFrame tail D b).length := by
  have chunks := length_le_sum_chunkCount tail (splitRuns D b)
  have := List.count_le_length (l := b) (a := D)
  rw [splitRuns_length] at chunks
  rw [encodeFrame_length]
  omega

theorem chunkCount_plain (g : Nat) : chunkCount .plain g = max 1 ((g + 253) / 254) := by rfl

theorem chunkCount_pad (g : Nat) : chunkCount .pad g = g / 254 + 1 := rfl

/-- Joining two runs saves at most one chunk, which the delimiter between them pays for. -/
theorem sum_chunkCount_plain_le (D : Byte) {rs : List (List Byte)} (h : rs ≠ []) :
    (rs.map fun r => chunkCount .plain r.length).sum + 1 ≤
      rs.length + max 1 (((joinRuns D rs).length + 253) / 254) := by
  induction rs with
  | nil => exact absurd rfl h
  | cons r rs ih =>
    by_cases hrs : rs = []
    · simp [hrs, chunkCount_plain, Nat.add_comm]
    · have rest := ih hrs
      simp only [joinRuns_cons D r hrs, List.map_cons, List.sum_cons, List.length_cons, List.length_append,
        chunkCount_plain] at rest ⊢
      omega

/-- Settles O42. -/
theorem overheadUnderPlain : Obligations.OverheadUnderPlain := by
  refine fun D b => ⟨encodeFrame_length .plain D b, length_add_two_le_encodeFrame_length .plain D b, ?_, fun hD => ?_⟩
  · have hsum := sum_chunkCount_plain_le D (splitRuns_ne_nil D b)
    have hcount := List.count_le_length (l := b) (a := D)
    rw [joinRuns_splitRuns, splitRuns_length] at hsum
    rw [encodeFrame_length]
    omega
  · rw [encodeFrame_length, splitRuns_single hD, List.count_eq_zero_of_not_mem hD]
    simp only [List.map_singleton, List.sum_singleton, chunkCount_plain]
    omega

theorem sum_chunkCount_pad (rs : List (List Byte)) :
    (rs.map fun r => chunkCount .pad r.length).sum = (rs.map fun r => r.length / 254).sum + rs.length := by
  simp [chunkCount_pad, List.sum_map_add]

theorem sum_div_le (rs : List (List Byte)) :
    (rs.map fun r => r.length / 254).sum ≤ (rs.map List.length).sum / 254 := by
  induction rs with
  | nil => exact Nat.le_refl _
  | cons r rs ih =>
    simp only [List.map_cons, List.sum_cons]
    omega

theorem encodeFrame_pad_length (D : Byte) (b : List Byte) :
    (encodeFrame .pad D b).length = b.length + 2 + ((splitRuns D b).map fun r => r.length / 254).sum := by
  have := List.count_le_length (l := b) (a := D)
  rw [encodeFrame_length, sum_chunkCount_pad, splitRuns_length]
  omega

/-- Settles O43. -/
theorem overheadUnderPad : Obligations.OverheadUnderPad := by
  intro D b
  have hsum := sum_div_le (splitRuns D b)
  have hlen := buffer_length D b
  refine ⟨encodeFrame_pad_length D b, length_add_two_le_encodeFrame_length .pad D b, ?_, ?_⟩
  · rw [encodeFrame_pad_length]
    omega
  · rw [encodeFrame_pad_length]
    by_cases hD : D ∈ b
    · have := List.count_pos_iff.mpr hD
      simp only [hD, not_true, false_and, iff_false]
      omega
    · simp only [splitRuns_single hD, List.map_singleton, List.sum_singleton, hD, not_false_iff, true_and]
      omega

/-! ### The delimiter in a frame -/

theorem count_packChunk {D : Byte} {c : List Byte} (hD : D ∉ c) (hc : c.length ≤ Config.maxChunk) :
    (packChunk c).count D = if c.length + 1 = D.toNat then 1 else 0 := by
  have hL : (BitVec.ofNat 8 (c.length + 1)).toNat = c.length + 1 := packChunk_head_toNat hc
  have head : BitVec.ofNat 8 (c.length + 1) = D ↔ c.length + 1 = D.toNat := by
    rw [← BitVec.toNat_inj, hL]
  simp [packChunk, List.count_cons, head, List.count_eq_zero_of_not_mem hD]

theorem count_flatMap_packChunk {D : Byte} {cs : List (List Byte)}
    (h : ∀ c ∈ cs, D ∉ c ∧ c.length ≤ Config.maxChunk) :
    (cs.flatMap packChunk).count D = cs.countP fun c => c.length + 1 = D.toNat := by
  induction cs with
  | nil => rfl
  | cons c cs ih =>
    obtain ⟨⟨hD, hc⟩, hcs⟩ := List.forall_mem_cons.mp h
    simp [List.count_append, ih hcs, count_packChunk hD hc, List.countP_cons, Nat.add_comm]

theorem encodeFrame_getLast? (tail : ChunkTail) (D : Byte) (b : List Byte) :
    (encodeFrame tail D b).getLast? = some D := by
  simp [encodeFrame]

theorem count_encodeFrame (tail : ChunkTail) (D : Byte) (b : List Byte) :
    (encodeFrame tail D b).count D = 1 + (allChunks tail D b).countP fun c => c.length + 1 = D.toNat := by
  have := count_flatMap_packChunk (D := D) (cs := allChunks tail D b)
    fun c hc => ⟨not_mem_of_mem_allChunks hc, length_le_of_mem_allChunks hc⟩
  simp [encodeFrame, this, Nat.add_comm]

/-- No length byte is 0. -/
theorem count_encodeFrame_zero (tail : ChunkTail) (b : List Byte) : (encodeFrame tail 0 b).count 0 = 1 := by
  simp [count_encodeFrame]

/-- Settles O44. -/
theorem delimiterCountInAFrame : Obligations.DelimiterCountInAFrame := by
  refine fun tail D b => ⟨encodeFrame_getLast? tail D b, count_encodeFrame tail D b, ?_⟩
  rintro rfl
  exact count_encodeFrame_zero tail b

/-! ### Frames that are shared, and frames that are never made -/

/-- Settles O47: the full chunk stands alone in front, with the delimiter behind it and without. -/
theorem plainFramesCollide : Obligations.PlainFramesCollide := by
  intro D x y hx hDx hy hDy
  have hlen := List.length_pos_of_ne_nil hy
  have apart : allChunks .plain D (x ++ [D] ++ y) = x :: chunkRun .plain y := by
    rw [allChunks, List.append_assoc, List.singleton_append, splitRuns_run hDx, splitRuns_single hDy]
    simp [chunkRun_full _ hx]
  have joined : allChunks .plain D (x ++ y) = x :: chunkRun .plain y := by
    have hlong : Config.maxChunk < (x ++ y).length := by
      rw [List.length_append, maxChunk_eq]
      omega
    rw [allChunks_of_not_mem (by simp [hDx, hDy]), chunkRun_long _ hlong, maxChunk_eq, ← hx, List.take_left,
      List.drop_left]
  rw [encodeFrame, apart, encodeFrame, joined]

/-- Settles O48: both settings give one frame, so it has what either law says. -/
theorem settingsAgreeWithoutFullRuns : Obligations.SettingsAgreeWithoutFullRuns := by
  intro D b h
  have agree : encodeFrame .plain D b = encodeFrame .pad D b := by
    rw [encodeFrame, allChunks_eq_of_noFullRun h, encodeFrame]
  have same : ∀ tail, encodeFrame tail D b = encodeFrame .plain D b := fun tail => by
    cases tail
    · rfl
    · exact agree.symm
  refine ⟨agree, fun tail => ?_, fun tail => ?_⟩
  · rw [same, agree]
    exact decodeFrame_encodeFrame_pad D b
  · obtain ⟨-, -, bound, -⟩ := overheadUnderPlain D b
    rw [same]
    exact bound

theorem encodeFrame_nil (tail : ChunkTail) (D : Byte) : encodeFrame tail D [] = [1, D] := by
  simp [encodeFrame, allChunks, chunkRun_nil, packChunk]

/-- Settles O51: a frame of ENCODE has a group, and with delimiter 0 only one 0. -/
theorem acceptedFramesNeverEncoded : Obligations.AcceptedFramesNeverEncoded := by
  intro tail D
  have two_le : ∀ b, 2 ≤ (encodeFrame tail D b).length := fun b => by
    have := length_add_two_le_encodeFrame_length tail D b
    omega
  refine ⟨decodeFrame_delim D, fun b h => ?_, two_le, encodeFrame_nil tail D, by decide, fun b h => ?_⟩
  · have := two_le b
    simp [h] at this
  · have := count_encodeFrame_zero tail b
    rw [h] at this
    exact absurd this (by decide)

/-! ### What DECODE gives for any bytes -/

/-- Settles O50. -/
theorem mismatchedDelimiters : Obligations.MismatchedDelimiters := by
  intro tail D1 D2 b h
  simp only [decodeFrame, encodeFrame_getLast?, h, if_false]

/-- A decoded buffer has a terminal delimiter behind it, which the loop stops at. -/
theorem decodeFrame_eq_ok {D : Byte} {f r : List Byte} (h : decodeFrame D f = .ok r) :
    f.getLast? = some D ∧ decodeLoop D f (f.length - 1) f.length 0 [] = .ok r := by
  unfold decodeFrame at h
  split at h
  · simp at h
  · split at h
    · rename_i hlast heq
      exact ⟨heq ▸ hlast, h⟩
    · simp at h

/-- Everything a step of the loop can do before the last index: end with cause 2, or go on behind a group. -/
theorem decodeLoop_cases (D : Byte) (f : List Byte) (last n pos : Nat) (out : List Byte) (h : pos < last) :
    let L := (f.getD pos 0).toNat
    ((L = 0 ∨ last < pos + L) ∧ decodeLoop D f last (n + 1) pos out = .err .invalidChunkLength) ∨
    (L ≠ 0 ∧ pos + L ≤ last ∧ decodeLoop D f last (n + 1) pos out =
      decodeLoop D f last n (pos + L)
        (out ++ (f.drop (pos + 1)).take (L - 1) ++ if pos + L < last ∧ L < 255 then [D] else [])) := by
  by_cases hL : (f.getD pos 0).toNat = 0 ∨ last < pos + (f.getD pos 0).toNat
  · exact .inl ⟨hL, decodeLoop_error D f last n pos out _ h rfl hL⟩
  · obtain ⟨h0, hb⟩ := not_or.mp hL
    exact .inr ⟨h0, by omega, decodeLoop_group D f last n pos out _ h rfl h0 (by omega)⟩

/-- A group of `L` bytes gives at most `L` bytes, and the last one at most `L - 1`. -/
theorem decodeLoop_length_le {D : Byte} {f : List Byte} {last n pos : Nat} {out r : List Byte} (hpos : pos ≤ last)
    (h : decodeLoop D f last n pos out = .ok r) : r.length ≤ out.length + (last - pos - 1) := by
  induction n generalizing pos out with
  | zero =>
    obtain rfl : out = r := DecodeResult.ok.inj h
    omega
  | succ n ih =>
    by_cases hend : pos < last
    · obtain ⟨-, herr⟩ | ⟨h0, hb, hgroup⟩ := decodeLoop_cases D f last n pos out hend
      · rw [herr] at h
        simp at h
      · rw [hgroup] at h
        have data := List.length_take_le ((f.getD pos 0).toNat - 1) (f.drop (pos + 1))
        have := ih hb h
        simp only [List.length_append] at this
        split at this
        · rw [List.length_singleton] at this
          omega
        · rw [List.length_nil] at this
          omega
    · rw [decodeLoop_end D f last _ pos out (by omega)] at h
      obtain rfl : out = r := DecodeResult.ok.inj h
      omega

/-- Settles O49. -/
theorem decodedLength : Obligations.DecodedLength := by
  intro D f r h
  obtain ⟨hlast, hloop⟩ := decodeFrame_eq_ok h
  have hr := decodeLoop_length_le (Nat.zero_le _) hloop
  rw [List.length_nil] at hr
  refine ⟨List.length_pos_of_ne_nil ?_, fun h1 => List.length_eq_zero_iff.mp (by omega), fun _ => by omega⟩
  rintro rfl
  simp at hlast

theorem decodeLoop_ne_missingTerminalDelimiter (D : Byte) (f : List Byte) (last n pos : Nat) (out : List Byte) :
    decodeLoop D f last n pos out ≠ .err .missingTerminalDelimiter := by
  induction n generalizing pos out with
  | zero => simp [decodeLoop]
  | succ n ih =>
    by_cases hend : pos < last
    · obtain ⟨-, herr⟩ | ⟨-, -, hgroup⟩ := decodeLoop_cases D f last n pos out hend
      · simp [herr]
      · rw [hgroup]
        exact ih _ _
    · simp [decodeLoop_end D f last _ pos out (by omega)]

theorem decodeFrame_ne_missingTerminalDelimiter {D : Byte} {f : List Byte} (h : f.getLast? = some D) :
    decodeFrame D f ≠ .err .missingTerminalDelimiter := by
  simp only [decodeFrame, h, if_true]
  exact decodeLoop_ne_missingTerminalDelimiter D f _ _ _ _

/-! ## The stream (43_host_stream.md) -/

/-- A slice that SCAN gives ends at the first delimiter (R151). -/
theorem scanBytes_eq_frame {D : Byte} {bs f rest : List Byte} (h : scanBytes D bs = .frame f rest) :
    ∃ p, D ∉ p ∧ f = p ++ [D] ∧ bs = p ++ D :: rest := by
  by_cases hD : D ∈ bs
  · obtain ⟨p, xs, rfl, hp⟩ := List.eq_append_cons_of_mem hD
    rw [scanBytes_frame hp] at h
    cases h
    exact ⟨p, hp, rfl, rfl⟩
  · rw [scanBytes_none hD] at h
    cases h

/-- Settles O52: the one 0 of the frame is its terminal delimiter. -/
theorem scanFindsTheSentFrame : Obligations.ScanFindsTheSentFrame := by
  intro tail m rest
  have once := count_encodeFrame_zero tail m
  rw [encodeFrame, List.count_append, List.count_singleton_self] at once
  have before : (0 : Byte) ∉ (allChunks tail 0 m).flatMap packChunk := List.count_eq_zero.mp (by omega)
  rw [encodeFrame, List.append_assoc, List.singleton_append, scanBytes_frame before]

/-- Settles O53. -/
theorem scannedFramesPassTheTermCheck : Obligations.ScannedFramesPassTheTermCheck := by
  intro D bs f rest h
  obtain ⟨p, hp, rfl, rfl⟩ := scanBytes_eq_frame h
  have hlast : (p ++ [D]).getLast? = some D := by simp
  exact ⟨by simp, hlast, by simp [List.count_eq_zero_of_not_mem hp], decodeFrame_ne_missingTerminalDelimiter hlast⟩

/-- A run of at most 254 bytes stands whole in its first chunk. -/
theorem chunkRun_head (tail : ChunkTail) {r : List Byte} (h : r.length ≤ Config.maxChunk) :
    ∃ cs, chunkRun tail r = r :: cs := by
  obtain h | h := h.lt_or_eq
  · exact ⟨[], chunkRun_short tail h⟩
  · exact ⟨_, chunkRun_full tail h⟩

/-- Settles O54: the first length byte equals the delimiter. -/
theorem scanHazardOfNonZeroDelimiters : Obligations.ScanHazardOfNonZeroDelimiters := by
  intro tail D m rest hD hlen
  have hm : m.length ≤ Config.maxChunk := by
    have := D.isLt
    rw [maxChunk_eq]
    omega
  obtain ⟨cs, hcs⟩ := chunkRun_head tail hm
  have head : BitVec.ofNat 8 (m.length + 1) = D := by rw [hlen, BitVec.ofNat_toNat, BitVec.setWidth_eq]
  have frame : encodeFrame tail D m ++ rest = D :: (m ++ (cs.flatMap packChunk ++ [D] ++ rest)) := by
    simp [encodeFrame, allChunks_of_not_mem hD, hcs, packChunk, head]
  rw [frame]
  exact ⟨scanBytes_frame (p := []) (by simp) _, decodeFrame_delim D⟩

end Sys2Proof.Machine

/-! ## What an instruction and a step of the engine can do

`ExecEffect` and `EncoderEffect` list, one constructor for each case, the next states an instruction and a step of the encoder
can have, with what holds where each occurs. Frames, invariants and the causes of an error are then case splits over them. -/

namespace Sys2Proof.Machine

/-- The next states of an instruction. -/
inductive ExecEffect (s : State) : Instr → State → Prop where
  | grpRaises (L : Byte) (place : s.atGroup = true) (past : s.last < s.pos + L.toNat) :
      ExecEffect s (.grp L) (s.discardOut.setDoneErr .invalidChunkLength)
  | grpCopies (L : Byte) (d : List Byte) (wf : (Instr.grp L).wf = true) (place : s.atGroup = true)
      (inside : s.pos + L.toNat ≤ s.last) (data : s.inBuf.readRange (s.pos + 1) (L.toNat - 1) = some d)
      (room : s.hasRoom (d ++ reinserted L s).length = true) :
      ExecEffect s (.grp L) ((s.pushOut (d ++ reinserted L s)).advance L)
  | grpfRaises (place : s.atGroup = true) (past : s.last < s.pos + 255) :
      ExecEffect s .grpf (s.discardOut.setDoneErr .invalidChunkLength)
  | grpfCopies (d : List Byte) (place : s.atGroup = true) (inside : s.pos + 255 ≤ s.last)
      (data : s.inBuf.readRange (s.pos + 1) 254 = some d) (room : s.hasRoom d.length = true) :
      ExecEffect s .grpf ((s.pushOut d).advance Config.full)
  | rsv0 (place : s.atGroup = true) : ExecEffect s .rsv0 (s.discardOut.setDoneErr .invalidChunkLength)
  | term (place : s.atTerm = true) : ExecEffect s .term s.setDoneOk
  | encodeBusy (busy : s.phase = .busy) : ExecEffect s .encode s
  | encodeStarts (ready : s.phase ≠ .busy) (fits : s.tooLong = false) :
      ExecEffect s .encode (s.startOperation .encode).startEncoder
  | decodeBusy (busy : s.phase = .busy) : ExecEffect s .decode s
  | decodeRaises (ready : s.phase ≠ .busy) (fits : s.tooLong = false) :
      ExecEffect s .decode ((s.startOperation .decode).discardOut.setDoneErr .missingTerminalDelimiter)
  | decodeStarts (ready : s.phase ≠ .busy) (fits : s.tooLong = false) (nonempty : 0 < s.inLen) :
      ExecEffect s .decode (s.startOperation .decode).startDecoder
  | split (b : List Byte) (D : Byte) : ExecEffect s (.split b D) (s.withUnit (.runs (splitRuns D b)))
  | chunk (r : List Byte) : ExecEffect s (.chunk r) (s.withUnit (.chunks (chunkRun s.chunkTail r)))
  | pack (c : List Byte) (wf : (Instr.pack c).wf = true) : ExecEffect s (.pack c) (s.withUnit (.group (packChunk c)))
  | scan (D : Byte) : ExecEffect s (.scan D) (s.afterScan (scanBytes D s.rx))

theorem full_toNat : Config.full.toNat = 255 := rfl

theorem exec_effect {s t : State} {i : Instr} (h : exec i s = .next t) : ExecEffect s i t := by
  cases i with
  | grp L =>
    obtain ⟨wf, place, hcopy⟩ := execGrp_cases L s t h
    obtain ⟨past, rfl⟩ | ⟨d, inside, data, room, rfl⟩ := copyGroup_cases _ _ _ _ hcopy
    · exact .grpRaises L place past
    · exact .grpCopies L d wf place inside data room
  | grpf =>
    obtain ⟨place, hcopy⟩ := execGrpf_cases s t h
    obtain ⟨past, rfl⟩ | ⟨d, inside, data, room, rfl⟩ := copyGroup_cases _ _ _ _ hcopy
    · exact .grpfRaises place past
    · rw [List.append_nil] at room ⊢
      exact .grpfCopies d place inside data room
  | rsv0 =>
    obtain ⟨place, rfl⟩ := execRsv0_cases s t h
    exact .rsv0 place
  | term =>
    obtain ⟨place, rfl⟩ := execTerm_cases s t h
    exact .term place
  | encode =>
    obtain ⟨busy, rfl⟩ | ⟨ready, fits, hbody⟩ := launch_cases .encode (fun u => .next u.startEncoder) s t h
    · exact .encodeBusy busy
    · cases hbody
      exact .encodeStarts ready fits
  | decode =>
    obtain ⟨busy, rfl⟩ | ⟨ready, fits, hbegin⟩ := launch_cases .decode _ s t h
    · exact .decodeBusy busy
    · obtain ⟨-, rfl⟩ | ⟨v, -, -, -, rfl⟩ | ⟨nonempty, -, rfl⟩ := beginDecode_cases _ _ hbegin
      · exact .decodeRaises ready fits
      · exact .decodeRaises ready fits
      · exact .decodeStarts ready fits nonempty
  | split b D =>
    cases h
    exact .split b D
  | chunk r =>
    cases h
    exact .chunk r
  | pack c =>
    simp only [exec, execPack] at h
    split at h
    · cases h
      exact .pack c ‹_›
    · cases h
  | scan D =>
    cases h
    exact .scan D

/-- The next states of a step of the encoder. -/
inductive EncoderEffect (s : State) : State → Prop where
  | closesRun (more : s.i < s.inLen) (byte : s.inBuf.read s.i = some s.cfgDelim)
      (room : s.hasRoom (closeBytes s.chunkTail s.acc).length = true) :
      EncoderEffect s ((s.pushOut (closeBytes s.chunkTail s.acc)).setAcc []).nextByte
  | flushes (x : Byte) (more : s.i < s.inLen) (byte : s.inBuf.read s.i = some x) (data : x ≠ s.cfgDelim)
      (full : s.acc.length = Config.maxChunk) (room : s.hasRoom (packChunk s.acc).length = true) :
      EncoderEffect s ((s.pushOut (packChunk s.acc)).setAcc [x]).nextByte
  | accumulates (x : Byte) (more : s.i < s.inLen) (byte : s.inBuf.read s.i = some x) (data : x ≠ s.cfgDelim)
      (notFull : s.acc.length ≠ Config.maxChunk) : EncoderEffect s (s.setAcc (s.acc ++ [x])).nextByte
  | finishes (atEnd : s.i = s.inLen)
      (room : s.hasRoom ((closeBytes s.chunkTail s.acc).length + 1) = true) :
      EncoderEffect s (((s.pushOut (closeBytes s.chunkTail s.acc)).setAcc []).pushOut [s.cfgDelim]).setDoneOk

theorem hasRoom_mono {s : State} {m n : Nat} (h : s.hasRoom n = true) (hmn : m ≤ n) : s.hasRoom m = true :=
  (hasRoom_iff s m).mpr fun c hc => le_trans (by omega) ((hasRoom_iff s n).mp h c hc)

theorem hasRoom_pushOut (s : State) (bs : List Byte) (n : Nat) :
    (s.pushOut bs).hasRoom n = s.hasRoom (bs.length + n) := by
  simp only [State.hasRoom, pushOut_outCap, pushOut_outIdx, Nat.add_assoc]

theorem encoderStep_effect {s t : State} (h : encoderStep s = .next t) : EncoderEffect s t := by
  obtain ⟨x, u, more, byte, hu, rfl⟩ | ⟨u, atEnd, hclose, room, rfl⟩ := encoderStep_cases s t h
  · split at hu
    · obtain ⟨room, rfl⟩ := (closeRun_eq_next _ _).mp hu
      subst x
      exact .closesRun more byte room
    · obtain ⟨full, room, rfl⟩ | ⟨notFull, rfl⟩ := accumulate_cases _ _ _ hu
      · exact .flushes x more byte ‹_› full room
      · exact .accumulates x more byte ‹_› notFull
  · obtain ⟨-, rfl⟩ := (closeRun_eq_next _ _).mp hclose
    exact .finishes atEnd ((hasRoom_pushOut _ _ _).symm.trans room)

/-- The next states of a step of the engine. -/
inductive EngineEffect (s : State) : State → Prop where
  | idle (ready : s.phase ≠ .busy) : EngineEffect s s
  | encoder (t : State) (busy : s.phase = .busy) (op : s.cmdOp = .encode) (effect : EncoderEffect s t) : EngineEffect s t
  | frame (i : Instr) (t : State) (busy : s.phase = .busy) (op : s.cmdOp = .decode) (frame : isHostCommand i = false)
      (effect : ExecEffect s i t) : EngineEffect s t

theorem engineStep_effect {s t : State} (h : engineStep s = .next t) : EngineEffect s t := by
  obtain ⟨ready, rfl⟩ | ⟨busy, op, hstep⟩ | ⟨i, busy, op, hfetch, hexec⟩ := engineStep_cases s t h
  · exact .idle ready
  · exact .encoder t busy op (encoderStep_effect hstep)
  · exact .frame i t busy op (fetch_frame s i hfetch) (exec_effect hexec)

/-! ### The engine leaves the input and the host alone (20_memory.md R43) -/

theorem sameInput_refl (s : State) : sameInput s s := ⟨rfl, rfl, rfl, rfl, rfl, rfl, fun _ => rfl⟩

theorem sameInput_afterScan (r : ScanResult) (s : State) : sameInput s (s.afterScan r) := by
  cases r <;> exact sameInput_refl s

theorem ExecEffect.sameInput {s t : State} {i : Instr} (h : ExecEffect s i t) : sameInput s t := by
  cases h with
  | scan D => exact sameInput_afterScan _ s
  | _ => exact sameInput_refl s

theorem EncoderEffect.sameInput {s t : State} (h : EncoderEffect s t) : sameInput s t := by
  cases h <;> exact sameInput_refl s

theorem EngineEffect.sameInput {s t : State} (h : EngineEffect s t) : sameInput s t := by
  cases h with
  | idle ready => exact sameInput_refl s
  | encoder _ busy op effect => exact effect.sameInput
  | frame i _ busy op frame effect => exact effect.sameInput

theorem sameHost_refl (s : State) : sameHost s s := ⟨rfl, rfl, rfl, rfl, rfl⟩

/-- Of the instructions only SCAN touches the host's data. -/
theorem ExecEffect.sameHost {s t : State} {i : Instr} (h : ExecEffect s i t) (hi : ∀ D, i ≠ .scan D) :
    sameHost s t := by
  cases h with
  | scan D => exact absurd rfl (hi D)
  | _ => exact sameHost_refl s

theorem EngineEffect.sameHost {s t : State} (h : EngineEffect s t) : sameHost s t := by
  cases h with
  | idle ready => exact sameHost_refl s
  | encoder _ busy op effect => cases effect <;> exact sameHost_refl s
  | frame i _ busy op frame effect =>
    refine effect.sameHost fun D hD => ?_
    simp [hD, isHostCommand] at frame

/-- Settles O38. -/
theorem engineNeverWritesTheInput : Obligations.EngineNeverWritesTheInput :=
  ⟨fun _ _ _ h => (exec_effect h).sameInput,
    fun _ _ h => ⟨(engineStep_effect h).sameInput, (engineStep_effect h).sameHost⟩⟩

/-! ### OUT is append-only within an operation (20_memory.md R44) -/

/-- `t` has the bytes of OUT that `s` has, and perhaps more behind them. -/
def extendsOut (s t : State) : Prop := s.outIdx ≤ t.outIdx ∧ ∀ a < s.outIdx, t.outBuf.read a = s.outBuf.read a

theorem extendsOut_refl (s : State) : extendsOut s s := ⟨Nat.le_refl _, fun _ _ => rfl⟩

theorem extendsOut_pushOut (bs : List Byte) (s : State) : extendsOut s (s.pushOut bs) :=
  ⟨Nat.le_add_right _ _, fun _ ha => read_writeBytes_outside _ _ _ _ (.inl ha)⟩

theorem extendsOut_trans {s t u : State} (h : extendsOut s t) (h' : extendsOut t u) : extendsOut s u :=
  ⟨h.1.trans h'.1, fun a ha => (h'.2 a (ha.trans_le h.1)).trans (h.2 a ha)⟩

theorem EncoderEffect.extendsOut {s t : State} (h : EncoderEffect s t) : extendsOut s t := by
  cases h with
  | closesRun more byte room => exact extendsOut_pushOut _ s
  | flushes x more byte data full room => exact extendsOut_pushOut _ s
  | accumulates x more byte data notFull => exact extendsOut_refl s
  | finishes atEnd room =>
    exact extendsOut_trans (extendsOut_pushOut (closeBytes s.chunkTail s.acc) s) (extendsOut_pushOut [s.cfgDelim] _)

/-- An instruction of a frame appends, ends the operation with what is there, or raises. -/
theorem ExecEffect.extendsOut_of_frame {s t : State} {i : Instr} (h : ExecEffect s i t)
    (hi : isHostCommand i = false) (ht : t.phase ≠ .doneErr) : extendsOut s t := by
  cases h with
  | grpRaises | grpfRaises | rsv0 => exact absurd rfl ht
  | grpCopies L d => exact extendsOut_pushOut _ s
  | grpfCopies d => exact extendsOut_pushOut _ s
  | term => exact extendsOut_refl s
  | encodeBusy | encodeStarts | decodeBusy | decodeRaises | decodeStarts | split | chunk | pack | scan =>
    simp [isHostCommand] at hi

/-- Settles O39. -/
theorem outIsAppendOnly : Obligations.OutIsAppendOnly := by
  intro s t hs _ hstep ht
  rw [step_of_idle_script hs] at hstep
  cases engineStep_effect hstep with
  | idle ready => exact extendsOut_refl s
  | encoder _ busy op effect => exact effect.extendsOut
  | frame i _ busy op frame effect => exact effect.extendsOut_of_frame frame ht

end Sys2Proof.Machine

/-! ## The instructions of a frame, one step each (42_decoder.md sections 3 and 4) -/

namespace Sys2Proof.Machine

/-! ### The step that runs them -/

theorem decoding_iff (s : State) : s.decoding = true ↔ s.phase = .busy ∧ s.cmdOp = .decode := by
  simp [State.decoding]

theorem fetch_group {s : State} {L : Byte} (hpos : s.pos < s.last) (hlast : s.last < s.inLen)
    (hL : s.inBuf.read s.pos = some L) : fetch s = .next (decodeGroupByte L) := by
  rw [fetch, if_pos hpos, (readIn_eq_next _ _ _).mpr ⟨hpos.trans hlast, hL⟩, andThen_next]

theorem fetch_term {s : State} (hpos : s.pos = s.last) : fetch s = .next .term := by
  rw [fetch, if_neg (by omega), if_pos hpos]

theorem engineStep_of_fetch {s : State} {i : Instr} (hd : s.decoding = true) (hi : fetch s = .next i) :
    engineStep s = exec i s := by
  obtain ⟨hbusy, hop⟩ := (decoding_iff s).mp hd
  simp only [engineStep, hbusy, if_true, hop, hi, andThen_next]

/-- Settles O6: the last byte is TERM on both sides, any other is dispatched on its value. -/
theorem stepRunsTheDecodedInstruction : Obligations.StepRunsTheDecodedInstruction := by
  intro s b rest i hs hd hpos hrest hbyte hi
  rw [step_of_idle_script hs]
  obtain hlt | heq := hpos.lt_or_eq
  · obtain ⟨hlast, hb⟩ := hbyte hlt
    obtain ⟨c, cs, rfl⟩ := List.exists_cons_of_length_pos (l := rest) (by omega)
    obtain rfl : decodeGroupByte b = i := Except.ok.inj hi
    exact engineStep_of_fetch hd (fetch_group hlt hlast hb)
  · obtain rfl : rest = [] := List.length_eq_zero_iff.mp (by omega)
    obtain rfl : Instr.term = i := Except.ok.inj hi
    exact engineStep_of_fetch hd (fetch_term heq)

/-- The first byte of a word's bytes is the word's lowest one. -/
theorem frameWith_head (D w : Byte) : (frameWith D 8 w.toNat)[0]? = some w := by
  have hlen : 0 < (tableBytes 8 w.toNat).length := by simp [tableBytes, longestGroup]
  rw [frameWith, List.getElem?_append_left hlen]
  simp [tableBytes, longestGroup]

/-- Settles O8. -/
theorem placedWordIsRun : Obligations.PlacedWordIsRun := by
  intro s w
  have hw : (s.withFetchWord 8 w.toNat).inBuf.read 0 = some w := (read_ofBytes _ _).trans (frameWith_head _ w)
  rw [step_of_idle_script rfl]
  exact engineStep_of_fetch rfl (fetch_group (Nat.zero_lt_succ _) (Nat.lt_succ_self _) hw)

/-- Settles O9. -/
theorem noOperationStartsByItself : Obligations.NoOperationStartsByItself := by
  intro s hs hp
  rw [step_of_idle_script hs, engineStep, if_neg hp]

/-! ### GRP, GRPF, RSV0 in their places -/

theorem grp_wf_iff (L : Byte) : (Instr.grp L).wf = true ↔ 1 ≤ L.toNat ∧ L.toNat ≤ 254 := by simp [Instr.wf]

theorem exec_grp {s : State} {L : Byte} (hL : (Instr.grp L).wf = true) (h : s.atGroup = true) :
    exec (.grp L) s = copyGroup L (reinserted L s) s := by
  simp only [exec, execGrp, hL, h, if_true]

theorem exec_grpf {s : State} (h : s.atGroup = true) : exec .grpf s = copyGroup Config.full [] s := by
  simp only [exec, execGrpf, h, if_true]

theorem exec_rsv0 {s : State} (h : s.atGroup = true) :
    exec .rsv0 s = .next (s.discardOut.setDoneErr .invalidChunkLength) := by
  simp only [exec, execRsv0, h, if_true, raiseCorruptFrame_eq]

/-- Settles O10. -/
theorem grpCopiesAndReinserts : Obligations.GrpCopiesAndReinserts := by
  intro s L h1 h254 hplace
  rw [exec_grp ((grp_wf_iff L).mpr ⟨h1, h254⟩) hplace]
  refine ⟨fun past => copyGroup_raises L _ past, ?_⟩
  rintro d sep inside hlast data rfl room
  exact copyGroup_copies L inside hlast data room

/-- Settles O11. -/
theorem grpfCopiesAndReinsertsNothing : Obligations.GrpfCopiesAndReinsertsNothing := by
  intro s hplace
  rw [exec_grpf hplace]
  refine ⟨fun past => copyGroup_raises Config.full _ past, fun d inside hlast data room => ?_⟩
  have hlen : d.length = 254 := readRange_length data
  have hcopy := copyGroup_copies Config.full (sep := []) inside hlast data (by rwa [List.append_nil, hlen])
  rw [List.append_nil] at hcopy
  rw [hcopy, ← hlen]
  rfl

/-- Settles O12. -/
theorem rsv0Raises : Obligations.Rsv0Raises := fun _ hplace => exec_rsv0 hplace

/-- Settles O17: each arm looks at its place and its operand first. -/
theorem misplacedInstructionsStop : Obligations.MisplacedInstructionsStop := by
  refine ⟨fun s h => ⟨?_, ?_, fun L hL => ?_⟩, fun s h => ?_, fun s L h => ?_, fun s c h => ?_⟩
  · simp [exec, execGrpf, h]
  · simp [exec, execRsv0, h]
  · simp [exec, execGrp, h, hL]
  · simp [exec, execTerm, h]
  · simp [exec, execGrp, h]
  · have hwf : ¬ (Instr.pack c).wf = true := fun hwf => by
      have := (pack_wf_iff c).mp hwf
      rw [maxChunk_eq] at this
      omega
    simp only [exec, execPack, hwf, if_false, Bool.false_eq_true]

/-! ### What a group leaves in OUT -/

@[simp] theorem output_advance (s : State) (L : Byte) : (s.advance L).output = s.output := rfl

/-- Settles O14. -/
theorem groupAppendsToOut : Obligations.GroupAppendsToOut := by
  intro s t L o hgrp hgrpf ht ho
  by_cases hL : L = 255
  · subst hL
    cases exec_effect (hgrpf rfl) with
    | grpfRaises => exact absurd rfl ht
    | grpfCopies d place inside data room => exact ⟨d, data, by simp [output_pushOut ho], rfl⟩
  · cases exec_effect (hgrp hL) with
    | grpRaises => exact absurd rfl ht
    | grpCopies _ d wf place inside data room =>
      refine ⟨d, data, ?_, rfl⟩
      simp only [output_advance, output_pushOut ho, List.append_assoc, ne_eq, hL, not_false_iff, true_and]
      rfl

/-- The instructions that stand in a frame (R67). -/
theorem not_isHostCommand {i : Instr} (h : (∃ L, i = .grp L) ∨ i = .grpf ∨ i = .rsv0 ∨ i = .term) :
    isHostCommand i = false := by
  obtain ⟨L, rfl⟩ | rfl | rfl | rfl := h <;> rfl

/-- An instruction of a frame leaves the encoder's registers, the operation, the units' result and `last`. -/
theorem ExecEffect.keeps_of_frame {s t : State} {i : Instr} (h : ExecEffect s i t) (hi : isHostCommand i = false) :
    sameEncoder s t ∧ t.cmdOp = s.cmdOp ∧ t.unitOut = s.unitOut ∧ t.last = s.last := by
  cases h with
  | encodeBusy | encodeStarts | decodeBusy | decodeRaises | decodeStarts | split | chunk | pack | scan =>
    simp [isHostCommand] at hi
  | _ => exact ⟨⟨rfl, rfl⟩, rfl, rfl, rfl⟩

/-- A place in a frame is one of a BUSY block. -/
theorem phase_of_atGroup {s : State} (h : s.atGroup = true) : s.phase = .busy := ((atGroup_iff s).mp h).1

theorem phase_of_atTerm {s : State} (h : s.atTerm = true) : s.phase = .busy := ((atTerm_iff s).mp h).1

/-- An instruction of a frame that ends in DONE_ERR has raised: nothing is left in OUT, `pos` stays (R196). -/
theorem ExecEffect.raised_of_frame {s t : State} {i : Instr} (h : ExecEffect s i t) (hi : isHostCommand i = false)
    (ht : t.phase = .doneErr) : t.pos = s.pos ∧ ∀ a, t.outBuf.read a = none := by
  cases h with
  | grpRaises | grpfRaises | rsv0 => exact ⟨rfl, fun _ => rfl⟩
  | grpCopies L d wf place => simp [phase_of_atGroup place] at ht
  | grpfCopies d place => simp [phase_of_atGroup place] at ht
  | term => simp at ht
  | encodeBusy | encodeStarts | decodeBusy | decodeRaises | decodeStarts | split | chunk | pack | scan =>
    simp [isHostCommand] at hi

/-- The bytes of OUT behind those a group stores, and before them, are as they were. -/
theorem read_pushOut_outside {s : State} {bs : List Byte} {n a : Nat} (hn : bs.length = n)
    (ha : a < s.outIdx ∨ s.outIdx + n ≤ a) : (s.pushOut bs).outBuf.read a = s.outBuf.read a :=
  read_writeBytes_outside _ _ _ _ (hn ▸ ha)

/-- A GRP or GRPF that raises nothing leaves the status and stores only its data bytes and the delimiter behind them. -/
theorem ExecEffect.stores_of_group {s t : State} {L : Byte} (h : ExecEffect s (.grp L) t) (ht : t.phase ≠ .doneErr) :
    sameStatus s t ∧ ∀ a, a < s.outIdx ∨ s.outIdx + (dataCount L + (reinserted L s).length) ≤ a →
      t.outBuf.read a = s.outBuf.read a := by
  cases h with
  | grpRaises => exact absurd rfl ht
  | grpCopies _ d wf place inside data room =>
    have hlen : (d ++ reinserted L s).length = dataCount L + (reinserted L s).length := by
      rw [List.length_append, readRange_length data, dataCount]
    exact ⟨⟨rfl, rfl, rfl, rfl⟩, fun a => read_pushOut_outside hlen⟩

theorem ExecEffect.stores_of_fullGroup {s t : State} (h : ExecEffect s .grpf t) (ht : t.phase ≠ .doneErr) :
    sameStatus s t ∧ ∀ a, a < s.outIdx ∨ s.outIdx + 254 ≤ a → t.outBuf.read a = s.outBuf.read a := by
  cases h with
  | grpfRaises => exact absurd rfl ht
  | grpfCopies d place inside data room =>
    exact ⟨⟨rfl, rfl, rfl, rfl⟩, fun a => read_pushOut_outside (readRange_length data)⟩

/-- Settles O15. -/
theorem frameInstructionsLeaveTheRest : Obligations.FrameInstructionsLeaveTheRest := by
  intro s t i hi h
  have hframe := not_isHostCommand hi
  have effect := exec_effect h
  obtain ⟨hencoder, hop, hunit, hlast⟩ := effect.keeps_of_frame hframe
  have hhost : sameHost s t := effect.sameHost fun D hD => by simp [hD, isHostCommand] at hframe
  refine ⟨effect.sameInput, hencoder, hhost, hop, hunit, hlast, effect.raised_of_frame hframe, ?_, ?_, ?_⟩
  · rintro rfl
    obtain ⟨-, rfl⟩ := execTerm_cases s t h
    exact ⟨rfl, rfl, fun _ => rfl⟩
  · rintro L rfl ht
    exact effect.stores_of_group ht
  · rintro rfl ht
    exact effect.stores_of_fullGroup ht

/-! ### The position counter (10_state.md R23, R29) -/

/-- Settles O16. -/
theorem positionAdvancesByTheLength : Obligations.PositionAdvancesByTheLength := by
  intro s t i h
  cases exec_effect h with
  | grpCopies L d wf place inside data room => simp [State.nextPos, inside]
  | grpfCopies d place inside data room => simp [State.nextPos, full_toNat, inside]
  | decodeBusy busy => simp [busy]
  | decodeStarts ready fits nonempty => simp [ready]
  | _ => simp

end Sys2Proof.Machine

/-! ## The commands and the exception (41_encoder.md R106, 42_decoder.md R122 to R124, 60_exceptions.md) -/

namespace Sys2Proof.Machine

/-! ### The starts -/

section ready
variable {s : State} (ready : s.phase ≠ .busy) (fits : s.tooLong = false)
include ready fits

theorem exec_encode_of_ready : exec .encode s = .next (s.startOperation .encode).startEncoder :=
  launch_of_ready .encode (fun t => .next t.startEncoder) ready fits

theorem exec_decode_of_ready : exec .decode s = beginDecode (s.startOperation .decode) :=
  launch_of_ready .decode _ ready fits

theorem exec_decode_empty (h : s.inLen = 0) :
    exec .decode s = .next ((s.startOperation .decode).discardOut.setDoneErr .missingTerminalDelimiter) := by
  rw [exec_decode_of_ready ready fits, beginDecode, startOperation_inLen, if_pos h, raiseCorruptFrame_eq]

/-- The TERM check of R123, on the byte that stands last. -/
theorem exec_decode_last_byte (h : 0 < s.inLen) {v : Byte} (hv : s.inBuf.read (s.inLen - 1) = some v) :
    exec .decode s = if v = s.cfgDelim then .next (s.startOperation .decode).startDecoder
      else .next ((s.startOperation .decode).discardOut.setDoneErr .missingTerminalDelimiter) := by
  have hread : readIn (s.inLen - 1) (s.startOperation .decode) = .next v :=
    (readIn_eq_next _ _ _).mpr ⟨Nat.sub_lt h Nat.one_pos, hv⟩
  rw [exec_decode_of_ready ready fits, beginDecode, startOperation_inLen, if_neg (by omega), hread, andThen_next]
  rfl

end ready

theorem exec_command_of_busy {i : Instr} (hi : i = .encode ∨ i = .decode) {s : State} (h : s.phase = .busy) :
    exec i s = .next s := by
  obtain rfl | rfl := hi <;> exact if_pos h

theorem exec_command_of_tooLong {i : Instr} (hi : i = .encode ∨ i = .decode) {s : State} (ready : s.phase ≠ .busy)
    (h : s.tooLong = true) : exec i s = .refused .inputTooLong := by
  obtain rfl | rfl := hi <;> exact (if_neg ready).trans (if_pos h)

theorem tooLong_of_maxLen {s : State} {m : Nat} (h : s.maxLen = some m) : s.tooLong = decide (m < s.inLen) := by
  simp [State.tooLong, h]

/-- Settles O21. -/
theorem encodeStarts : Obligations.EncodeStarts := fun _ ready fits => exec_encode_of_ready ready fits

/-- Settles O22. -/
theorem decodeStarts : Obligations.DecodeStarts := by
  intro s ready fits nonempty hv
  rw [exec_decode_last_byte ready fits nonempty hv, if_pos rfl]
  rfl

/-- Settles O23. -/
theorem decodeChecksTheTerminalDelimiter : Obligations.DecodeChecksTheTerminalDelimiter := by
  intro s v ready fits nonempty hv
  rw [exec_decode_last_byte ready fits nonempty hv]
  refine ⟨fun hne => ?_, fun heq => ?_⟩
  · rw [if_neg hne]
    rfl
  · rw [if_pos heq]
    exact ⟨_, rfl, rfl, rfl, rfl⟩

/-- Settles O24. -/
theorem decodeOfNothingRaises : Obligations.DecodeOfNothingRaises :=
  fun _ ready fits hlen => exec_decode_empty ready fits hlen

/-- Settles O25. -/
theorem startsTurnedAway : Obligations.StartsTurnedAway := by
  refine ⟨fun s busy => ⟨exec_command_of_busy (.inl rfl) busy, exec_command_of_busy (.inr rfl) busy⟩,
    fun s m ready hmax hlong => ?_, fun s m ready hmax hfits => ?_⟩
  · have long : s.tooLong = true := by simpa [tooLong_of_maxLen hmax] using hlong
    exact ⟨exec_command_of_tooLong (.inl rfl) ready long, exec_command_of_tooLong (.inr rfl) ready long⟩
  · have fits : s.tooLong = false := by simpa [tooLong_of_maxLen hmax] using hfits
    exact ⟨_, exec_encode_of_ready ready fits, rfl⟩

/-- A command that is not turned away leaves the units' result and the other side's registers, and OUT empty. -/
theorem ExecEffect.keeps_of_command {s t : State} {i : Instr} (h : ExecEffect s i t) (hi : i = .encode ∨ i = .decode)
    (ready : s.phase ≠ .busy) :
    t.unitOut = s.unitOut ∧ (i = .encode → sameDecoder s t) ∧ (i = .decode → sameEncoder s t) ∧
      t.outIdx = 0 ∧ ∀ a, t.outBuf.read a = none := by
  cases h with
  | encodeBusy busy | decodeBusy busy => exact absurd busy ready
  | encodeStarts => exact ⟨rfl, fun _ => ⟨rfl, rfl⟩, nofun, rfl, fun _ => rfl⟩
  | decodeRaises | decodeStarts => exact ⟨rfl, nofun, fun _ => ⟨rfl, rfl⟩, rfl, fun _ => rfl⟩
  | grpRaises | grpCopies | grpfRaises | grpfCopies | rsv0 | term | split | chunk | pack | scan => simp at hi

/-- Settles O26. -/
theorem commandsLeaveTheRest : Obligations.CommandsLeaveTheRest := by
  intro s t i hi h
  have effect := exec_effect h
  have hhost : sameHost s t := effect.sameHost fun D hD => by simp [hD] at hi
  by_cases busy : s.phase = .busy
  · obtain rfl : s = t := by simpa [exec_command_of_busy hi busy] using h
    exact ⟨effect.sameInput, hhost, rfl, fun _ => ⟨rfl, rfl⟩, fun _ => ⟨rfl, rfl⟩,
      fun _ => ⟨⟨rfl, rfl, rfl, rfl⟩, ⟨rfl, fun _ => rfl⟩, ⟨rfl, rfl⟩, ⟨rfl, rfl⟩⟩, fun ready => absurd busy ready⟩
  · obtain ⟨hunit, hencode, hdecode, hout⟩ := effect.keeps_of_command hi busy
    exact ⟨effect.sameInput, hhost, hunit, hencode, hdecode, fun h => absurd h busy, fun _ => hout⟩

/-! ### The exception -/

/-- Settles O18. -/
theorem raiseEndsTheOperation : Obligations.RaiseEndsTheOperation := by
  refine fun c s => ⟨_, rfl, rfl, rfl, rfl, fun _ => rfl, ?_, sameInput_refl s, ⟨rfl, rfl⟩, ⟨rfl, rfl⟩, sameHost_refl s,
    rfl, rfl⟩
  cases c <;> rfl

/-- Settles O19. -/
theorem onlyDecodeRaises : Obligations.OnlyDecodeRaises := by
  refine ⟨fun s t i h hs ht => ?_, fun s t h hs => ?_, fun s place => ⟨?_, fun L h1 h254 past => ?_, fun past => ?_⟩,
    fun s ready fits h => ?_⟩
  · cases exec_effect h with
    | grpRaises L place past => exact .inr (.inl ⟨⟨L, rfl, past⟩, rfl⟩)
    | grpfRaises place past => exact .inr (.inr (.inl ⟨rfl, past, rfl⟩))
    | rsv0 place => exact .inr (.inr (.inr ⟨rfl, rfl⟩))
    | decodeRaises ready fits => exact .inl ⟨rfl, rfl⟩
    | scan D => simp [hs] at ht
    | term | encodeStarts | decodeStarts => simp at ht
    | grpCopies | grpfCopies | encodeBusy | decodeBusy | split | chunk | pack => exact absurd ht hs
  · cases encoderStep_effect h with
    | finishes => simp
    | closesRun | flushes | accumulates => exact hs
  · exact ⟨_, exec_rsv0 place, rfl, rfl⟩
  · exact ⟨_, (exec_grp ((grp_wf_iff L).mpr ⟨h1, h254⟩) place).trans (copyGroup_raises L _ past), rfl, rfl⟩
  · exact ⟨_, (exec_grpf place).trans (copyGroup_raises Config.full _ past), rfl, rfl⟩
  · by_cases hlen : s.inLen = 0
    · exact ⟨_, exec_decode_empty ready fits hlen, rfl, rfl⟩
    · obtain hlen' | ⟨v, hne, hv⟩ := h
      · exact absurd hlen' hlen
      · exact ⟨_, (exec_decode_last_byte ready fits (Nat.pos_of_ne_zero hlen) hv).trans (if_neg hne), rfl, rfl⟩

end Sys2Proof.Machine

/-! ## The host (10_state.md section 4, 20_memory.md, 43_host_stream.md, 70_reset_and_hazards.md) -/

namespace Sys2Proof.Machine

/-! ### What an action of the host can do -/

/-- The next states of a host's write of a register. -/
inductive RegisterEffect (s : State) : Reg → State → Prop where
  | delim (v : Byte) (ready : s.phase ≠ .busy) : RegisterEffect s .cfgDelim { s with cfgDelim := v }
  | command (op : BitVec 1) (t : State) (effect : ExecEffect s (decodeCmd op) t) : RegisterEffect s .cmdOp t
  | inLen (v : Nat) (ready : s.phase ≠ .busy) : RegisterEffect s .inLen { s with inLen := v }

theorem writeRegister_effect {s t : State} {r : Reg} {v : Nat} (h : writeRegister r v s = .next t) :
    RegisterEffect s r t := by
  cases r with
  | cfgDelim =>
    simp only [writeRegister] at h
    split at h
    · cases h
    · split at h
      · cases h
        exact .delim _ ‹_›
      · cases h
  | cmdOp =>
    simp only [writeRegister] at h
    split at h
    · exact .command _ t (exec_effect h)
    · cases h
  | inLen =>
    simp only [writeRegister] at h
    split at h
    · cases h
    · cases h
      exact .inLen v ‹_›
  | cfgMaxchunk | statusPhase | statusCause | outLen => cases h

/-- The next states of an action of the host. What a read gives, and by which of its ways a byte of IN is written, is left
open. -/
inductive HostEffect (s : State) : HostAction → State → Prop where
  | engine (t : State) (effect : EngineEffect s t) : HostEffect s .letEngineStep t
  | issue (i : Instr) (t : State) (command : isHostCommand i = true) (effect : ExecEffect s i t) :
      HostEffect s (.issue i) t
  | writeReg (r : Reg) (v : Nat) (t : State) (effect : RegisterEffect s r t) : HostEffect s (.writeReg r v) t
  | writeRegAt (r : Reg) (addr v : Nat) (t : State) (located : s.locate addr = some (.register r))
      (effect : RegisterEffect s r t) : HostEffect s (.writeAt addr v) t
  | writeIn (a : HostAction) (idx : Nat) (b : Byte) (ready : s.phase ≠ .busy) :
      HostEffect s a { s with inBuf := s.inBuf.write idx b }
  | loadIn (bs : List Byte) (ready : s.phase ≠ .busy) :
      HostEffect s (.loadIn bs) { s with inBuf := Memory.ofBytes bs, inLen := bs.length }
  | provideOut (size : Option Nat) (ready : s.phase ≠ .busy) : HostEffect s (.provideOut size) { s with outCap := size }
  | read (a : HostAction) (v : Nat) : HostEffect s a { s with readPort := v }
  | receive (bs : List Byte) : HostEffect s (.receive bs) { s with rx := s.rx ++ bs }
  | passFrame (f : List Byte) (ready : s.phase ≠ .busy) :
      HostEffect s .passFrame { s with inBuf := Memory.ofBytes f, inLen := f.length, scanned := .noFrameYet }
  | sendFrame (bs : List Byte) : HostEffect s .sendFrame { s with tx := s.tx ++ bs }
  | reset : HostEffect s .resetBlock s.resetBlock

theorem hostReadReg_eq_next {r : Reg} {s t : State} (h : hostReadReg r s = .next t) :
    ∃ v, readRegister r s = .next v ∧ t = { s with readPort := v } := by
  obtain ⟨v, hv, h⟩ := (andThen_eq_next _ _ _).mp h
  exact ⟨v, hv, by simpa using h.symm⟩

theorem hostReadOut_eq_next {idx : Nat} {s t : State} (h : hostReadOut idx s = .next t) :
    ∃ b : Byte, readOutByte idx s = .next b ∧ t = { s with readPort := b.toNat } := by
  obtain ⟨b, hb, h⟩ := (andThen_eq_next _ _ _).mp h
  exact ⟨b, hb, by simpa using h.symm⟩

/-- What a host may not do while BUSY it does in the next state otherwise. -/
theorem eq_of_unless_busy {s t u : State} {r : Refusal}
    (h : (if s.phase = .busy then Host.Outcome.refused (φ := Fault) r else .next u) = .next t) :
    s.phase ≠ .busy ∧ t = u := by
  split at h
  · cases h
  · exact ⟨‹_›, by simpa using h.symm⟩

theorem hostAct_effect {a : HostAction} {s t : State} (h : hostAct a s = .next t) : HostEffect s a t := by
  cases a with
  | letEngineStep => exact .engine t (engineStep_effect h)
  | issue i =>
    simp only [hostAct, hostIssue] at h
    split at h
    · exact .issue i t ‹_› (exec_effect h)
    · cases h
  | writeReg r v => exact .writeReg r v t (writeRegister_effect h)
  | readReg r =>
    obtain ⟨v, -, rfl⟩ := hostReadReg_eq_next h
    exact .read _ v
  | writeIn idx b =>
    obtain ⟨ready, rfl⟩ := eq_of_unless_busy h
    exact .writeIn _ idx b ready
  | loadIn bs =>
    obtain ⟨ready, rfl⟩ := eq_of_unless_busy h
    exact .loadIn bs ready
  | provideOut size =>
    obtain ⟨ready, rfl⟩ := eq_of_unless_busy h
    exact .provideOut size ready
  | readOut idx =>
    obtain ⟨b, -, rfl⟩ := hostReadOut_eq_next h
    exact .read _ b.toNat
  | readAt addr =>
    obtain ⟨r, -, h⟩ | ⟨idx, -, h⟩ := hostReadAt_cases addr s t h
    · obtain ⟨v, -, rfl⟩ := hostReadReg_eq_next h
      exact .read _ v
    · obtain ⟨b, -, rfl⟩ := hostReadOut_eq_next h
      exact .read _ b.toNat
  | writeAt addr v =>
    obtain ⟨r, located, h⟩ | ⟨idx, -, -, h⟩ := hostWriteAt_cases addr v s t h
    · exact .writeRegAt r addr v t located (writeRegister_effect h)
    · obtain ⟨ready, rfl⟩ := eq_of_unless_busy h
      exact .writeIn _ idx _ ready
  | receive bs =>
    cases h
    exact .receive bs
  | passFrame =>
    simp only [hostAct, hostPassFrame] at h
    split at h
    · cases h
    · obtain ⟨u, hu, h⟩ := (andThen_eq_next _ _ _).mp h
      obtain ⟨ready, rfl⟩ := eq_of_unless_busy hu
      cases h
      exact .passFrame _ ready
  | sendFrame =>
    simp only [hostAct, hostSendFrame] at h
    split at h
    · split at h
      · cases h
        exact .sendFrame _
      · cases h
    · cases h
  | resetBlock =>
    cases h
    exact .reset

/-! ### A failed DECODE stays failed (60_exceptions.md R198) -/

theorem EngineEffect.eq_of_not_busy {s t : State} (h : EngineEffect s t) (ready : s.phase ≠ .busy) : t = s := by
  cases h with
  | idle => rfl
  | encoder _ busy | frame _ _ busy => exact absurd busy ready

/-- Outside an operation no instruction but the two commands changes the status. -/
theorem ExecEffect.sameStatus_of_not_busy {s t : State} {i : Instr} (h : ExecEffect s i t) (ready : s.phase ≠ .busy)
    (hi : i ≠ .encode ∧ i ≠ .decode) : sameStatus s t := by
  cases h with
  | grpRaises _ place | grpCopies _ _ _ place | grpfRaises place | grpfCopies _ place | rsv0 place =>
    exact absurd (phase_of_atGroup place) ready
  | term place => exact absurd (phase_of_atTerm place) ready
  | encodeBusy | encodeStarts | decodeBusy | decodeRaises | decodeStarts => simp at hi
  | split | chunk | pack => exact ⟨rfl, rfl, rfl, rfl⟩
  | scan D => simp [sameStatus]

theorem RegisterEffect.sameStatus {s t : State} {r : Reg} (h : RegisterEffect s r t) (hr : r ≠ .cmdOp) :
    sameStatus s t := by
  cases h with
  | delim | inLen => exact ⟨rfl, rfl, rfl, rfl⟩
  | command => exact absurd rfl hr

/-- Settles O20. -/
theorem errorIsFinal : Obligations.ErrorIsFinal := by
  intro s t herr hstep hissue hreg hat hreset
  have keeps : ∀ u : State, sameStatus s u → u.phase = .doneErr ∧ u.cause = s.cause :=
    fun u ⟨_, hphase, hcause, _⟩ => ⟨hphase.trans herr, hcause⟩
  have ready : s.phase ≠ .busy := by simp [herr]
  cases hs : s.script with
  | nil =>
    rw [step_of_idle_script hs] at hstep
    rw [(engineStep_effect hstep).eq_of_not_busy ready]
    exact ⟨herr, rfl⟩
  | cons a rest =>
    rw [step_of_action hs] at hstep
    refine keeps t ?_
    cases hostAct_effect hstep with
    | engine _ effect =>
      rw [effect.eq_of_not_busy ready]
      exact ⟨rfl, rfl, rfl, rfl⟩
    | issue i _ command effect => exact effect.sameStatus_of_not_busy ready (hissue rest i hs)
    | writeReg r v _ effect =>
      exact effect.sameStatus fun hr => hreg rest v (hr ▸ hs)
    | writeRegAt r addr v _ located effect =>
      exact effect.sameStatus fun hr => hat rest addr v hs (hr ▸ located)
    | reset => exact absurd hs (hreset rest)
    | _ => exact ⟨rfl, rfl, rfl, rfl⟩

/-! ### An access by address is the access by name (20_memory.md R47); a step runs it with the rest of the list pending -/

section address
variable {s : State} {addr : Nat} {rest : List HostAction}

theorem hostReadAt_register {r : Reg} (h : s.locate addr = some (.register r)) :
    hostReadAt addr (s.setScript rest) = hostReadReg r (s.setScript rest) := by
  rw [hostReadAt, locate_setScript, h]

theorem hostReadAt_outByte {idx : Nat} (h : s.locate addr = some (.outByte idx)) :
    hostReadAt addr (s.setScript rest) = hostReadOut idx (s.setScript rest) := by
  rw [hostReadAt, locate_setScript, h]

theorem hostReadAt_inByte {idx : Nat} (h : s.locate addr = some (.inByte idx)) :
    hostReadAt addr (s.setScript rest) = .refused .bufferAccessNotGiven := by
  rw [hostReadAt, locate_setScript, h]

theorem hostReadAt_none (h : s.locate addr = none) :
    hostReadAt addr (s.setScript rest) = .refused .noSuchAddress := by
  rw [hostReadAt, locate_setScript, h]

theorem hostWriteAt_register {r : Reg} (h : s.locate addr = some (.register r)) (v : Nat) :
    hostWriteAt addr v (s.setScript rest) = writeRegister r v (s.setScript rest) := by
  rw [hostWriteAt, locate_setScript, h]

theorem hostWriteAt_inByte {idx v : Nat} (h : s.locate addr = some (.inByte idx)) (hv : v < 256) :
    hostWriteAt addr v (s.setScript rest) = hostWriteIn idx (BitVec.ofNat 8 v) (s.setScript rest) := by
  simp only [hostWriteAt, locate_setScript, h, hv, if_true]

theorem hostWriteAt_inByte_wide {idx v : Nat} (h : s.locate addr = some (.inByte idx)) (hv : 256 ≤ v) :
    hostWriteAt addr v (s.setScript rest) = .refused .valueTooWide := by
  simp only [hostWriteAt, locate_setScript, h, Nat.not_lt.mpr hv, if_false]

theorem hostWriteAt_outByte {idx : Nat} (h : s.locate addr = some (.outByte idx)) (v : Nat) :
    hostWriteAt addr v (s.setScript rest) = .refused .bufferAccessNotGiven := by
  rw [hostWriteAt, locate_setScript, h]

theorem hostWriteAt_none (h : s.locate addr = none) (v : Nat) :
    hostWriteAt addr v (s.setScript rest) = .refused .noSuchAddress := by
  rw [hostWriteAt, locate_setScript, h]

end address

/-! ### Actions of the host, one step each -/

/-- Settles O7. -/
theorem stepRunsThePendingCommand : Obligations.StepRunsThePendingCommand := by
  have command : ∀ (op : BitVec 1) (s : State), writeRegister .cmdOp op.toNat s = exec (decodeCmd op) s := fun op s => by
    rw [writeRegister, if_pos op.isLt, BitVec.ofNat_toNat, BitVec.setWidth_eq]
  refine ⟨fun s i rest hs hi => ?_, fun s op rest hs => ?_, fun s op addr rest hs hloc => ?_, fun s rest hs => ?_⟩
  · rw [step_of_action hs]
    exact if_pos hi
  · rw [step_of_action hs]
    exact command op _
  · rw [step_of_action hs, hostAct, hostWriteAt_register hloc]
    exact command op _
  · refine ⟨step_of_action hs, ?_⟩
    rw [step_of_action hs, hostAct, step_of_idle_script (setScript_script [] s), ← engineStep_setScript,
      setScript_setScript]

/-- Settles O31. -/
theorem scanCutsAtTheFirstDelimiter : Obligations.ScanCutsAtTheFirstDelimiter := by
  refine ⟨fun s D => ⟨fun hD => ?_, fun f rest hrx hf => ?_⟩, fun s bs rest hs => step_of_action hs,
    fun s rest hs => ⟨fun hscan => ?_, fun f behind hscan ready => ?_⟩,
    fun s rest hs => ⟨fun o hdone ho => ?_, fun hdone => ?_⟩⟩
  · rw [exec, execScan, scanBytes_none hD]
    rfl
  · rw [exec, execScan, hrx, List.append_assoc, List.singleton_append, scanBytes_frame hf]
    rfl
  · rw [step_of_action hs, hostAct, hostPassFrame, setScript_scanned, hscan]
  · refine ⟨{ s with script := rest, inBuf := Memory.ofBytes f, inLen := f.length, scanned := .noFrameYet }, ?_,
      readRange_ofBytes f, rfl⟩
    rw [step_of_action hs, hostAct, hostPassFrame, setScript_scanned, hscan]
    simp only [hostLoadIn, setScript_phase, ready, if_false, andThen_next]
    rfl
  · rw [step_of_action hs, hostAct, hostSendFrame, setScript_phase, if_pos hdone, setScript_outBuf, setScript_outLen, ho]
    rfl
  · rw [step_of_action hs, hostAct, hostSendFrame, setScript_phase, if_neg hdone]

/-- Settles O32. -/
theorem unitsAndScanLeaveTheBlock : Obligations.UnitsAndScanLeaveTheBlock := by
  intro s t i hi h
  have effect := exec_effect h
  refine ⟨effect.sameInput, ?_⟩
  cases effect with
  | split | chunk | pack =>
    exact ⟨⟨rfl, rfl, rfl, rfl⟩, ⟨rfl, fun _ => rfl⟩, ⟨rfl, rfl⟩, ⟨rfl, rfl⟩, rfl, rfl, rfl, fun _ => ⟨rfl, rfl⟩, nofun⟩
  | scan D => simp [sameStatus, sameOut, sameDecoder, sameEncoder]
  | grpRaises | grpCopies | grpfRaises | grpfCopies | rsv0 | term | encodeBusy | encodeStarts | decodeBusy
  | decodeRaises | decodeStarts => simp at hi

/-- Settles O55: each of these actions looks at PHASE first. -/
theorem operandsAreStableWhileBusy : Obligations.OperandsAreStableWhileBusy := by
  intro s rest busy
  refine ⟨fun v hs => ?_, fun v hs => ?_, fun a b hs => ?_, fun bs hs => ?_, fun size hs => ?_,
    fun f behind hscan hs => ?_, fun addr v hs => ⟨fun hloc => ?_, fun hloc => ?_, fun idx hloc hv => ?_⟩⟩
  all_goals rw [step_of_action hs, hostAct]
  · exact if_pos busy
  · exact if_pos busy
  · exact if_pos busy
  · exact if_pos busy
  · exact if_pos busy
  · rw [hostPassFrame, setScript_scanned, hscan]
    simp only [hostLoadIn, setScript_phase, busy, if_true, andThen_refused]
  · exact (hostWriteAt_register hloc v).trans (if_pos busy)
  · exact (hostWriteAt_register hloc v).trans (if_pos busy)
  · exact (hostWriteAt_inByte hloc hv).trans (if_pos busy)

/-- Settles O56. -/
theorem hostSetsTheDelimiter : Obligations.HostSetsTheDelimiter := by
  intro s rest ready
  refine ⟨fun d hs => ?_, fun v hs => ?_, fun idx b hs => ?_, fun bs hs => ?_, fun size hs => ?_, fun v hv hs => ?_,
    fun v hv hs => ?_⟩
  all_goals rw [step_of_action hs, hostAct]
  · rw [writeRegister, setScript_phase, if_neg ready, if_pos d.isLt, BitVec.ofNat_toNat, BitVec.setWidth_eq]
    rfl
  · exact if_neg ready
  · exact ⟨_, if_neg ready, rfl, read_write_same _ _ _, fun a ha => read_write_other _ _ ha⟩
  · exact ⟨_, if_neg ready, rfl, readRange_ofBytes bs, read_ofBytes bs⟩
  · exact if_neg ready
  · rw [writeRegister, setScript_phase, if_neg ready, if_neg (by omega)]
  · rw [writeRegister, if_neg (by omega)]


/-- PHASE reads as R25 numbers it. -/
theorem readRegister_statusPhase (s : State) : readRegister .statusPhase s =
    .next (match s.phase with | .idle => 0 | .busy => 1 | .doneOk => 2 | .doneErr => 3) := by
  rw [readRegister]
  cases s.phase <;> rfl

/-- CAUSE reads as R193 numbers it. -/
theorem readRegister_statusCause (s : State) : readRegister .statusCause s = .next (match s.cause with
    | none => 0 | some .missingTerminalDelimiter => 1 | some .invalidChunkLength => 2) := by
  rw [readRegister]
  cases s.cause with
  | none => rfl
  | some c => cases c <;> rfl

/-- Settles O58. -/
theorem registersReadAsListed : Obligations.RegistersReadAsListed := by
  refine ⟨fun s addr rest hs => ⟨fun r hloc => ?_, fun idx hloc => ?_, fun idx hloc => ?_, fun hloc => ?_⟩,
    fun s addr v rest hs => ⟨fun r hloc => ?_, fun idx b hloc hv => ?_, fun idx hloc hv => ?_, fun idx hloc => ?_,
      fun hloc => ?_⟩,
    fun s r rest hs => ⟨fun v hv => ?_, fun hr => ?_, fun hr busy => ?_⟩,
    fun s => ⟨rfl, readRegister_statusPhase s, readRegister_statusCause s, rfl, fun ready => if_neg ready, fun v => ⟨rfl, rfl, rfl, rfl⟩⟩⟩
  all_goals rw [step_of_action hs, hostAct]
  · exact hostReadAt_register hloc
  · exact hostReadAt_outByte hloc
  · exact hostReadAt_inByte hloc
  · exact hostReadAt_none hloc
  · exact hostWriteAt_register hloc v
  · subst hv
    rw [hostWriteAt_inByte hloc b.isLt, BitVec.ofNat_toNat, BitVec.setWidth_eq]
    rfl
  · exact hostWriteAt_inByte_wide hloc hv
  · exact hostWriteAt_outByte hloc v
  · exact hostWriteAt_none hloc v
  · have hv' : readRegister r (s.setScript rest) = .next v := hv
    rw [hostReadReg, hv', andThen_next]
    rfl
  · obtain rfl | rfl := hr <;> rfl
  · subst hr
    rw [hostReadReg, readRegister, setScript_phase, if_pos busy, andThen_refused]

/-! ### Reset -/

/-- Settles O59: the fields of the reset state are written out. -/
theorem resetValues : Obligations.ResetValues :=
  ⟨rfl, rfl, rfl, rfl, rfl, rfl, rfl, fun _ => rfl, fun _ => rfl, rfl, rfl, rfl, rfl⟩

/-- Settles O60. -/
theorem resetAbandonsTheOperation : Obligations.ResetAbandonsTheOperation := by
  intro s rest hs
  exact ⟨_, step_of_action hs, rfl, rfl, rfl, rfl, rfl, rfl, fun _ => rfl, fun _ => rfl, rfl, rfl, rfl, rfl, rfl, rfl,
    rfl, rfl, rfl⟩

end Sys2Proof.Machine

/-! ## The invariant of the machine, and that its engine goes on -/

namespace Sys2Proof.Machine

/-! ### The named updates keep the invariant -/

theorem hasRoom_zero_of_empty {s : State} (h : s.outIdx = 0) : s.hasRoom 0 = true :=
  (hasRoom_iff s 0).mpr fun c _ => by omega

namespace State.Inv
variable {s : State}

/-- The host's data, the units' result and the address map are no part of it. -/
theorem setScript (h : s.Inv) (as : List HostAction) : (s.setScript as).Inv := { h with }

theorem withUnit (h : s.Inv) (u : UnitResult) : (s.withUnit u).Inv := { h with }

theorem afterScan (h : s.Inv) (r : ScanResult) : (s.afterScan r).Inv := by
  cases r <;> exact { h with }

theorem pushOut (h : s.Inv) (busy : s.phase = .busy) {bs : List Byte} (room : s.hasRoom bs.length = true) :
    (s.pushOut bs).Inv :=
  { h with
    outWf := writeBytes_wf _ _ _ h.outWf
    length := by simpa [State.lengthAgrees, busy] using h.length
    dense := writeBytes_dense _ _ _ h.dense
    fits := fun _ => by rwa [hasRoom_pushOut] }

theorem advance (h : s.Inv) {L : Byte} (hd : s.decoding = true) (inside : s.pos + L.toNat ≤ s.last) :
    (s.advance L).Inv :=
  { h with decoder := fun _ => ⟨inside, (h.decoder hd).2⟩ }

theorem setAcc (h : s.Inv) {a : List Byte} (len : a.length ≤ Config.maxChunk) (data : ∀ x ∈ a, x ≠ s.cfgDelim) :
    (s.setAcc a).Inv :=
  { h with encoder := fun he => ⟨(h.encoder he).1, len, data⟩ }

theorem nextByte (h : s.Inv) (more : s.i < s.inLen) : s.nextByte.Inv :=
  { h with encoder := fun he => ⟨more, (h.encoder he).2⟩ }

theorem setDoneOk (h : s.Inv) : s.setDoneOk.Inv :=
  { h with
    flags := by simp [State.flagsAgree]
    length := by simp [State.lengthAgrees]
    decoder := fun hd => by simp [State.decoding] at hd
    encoder := fun he => by simp [State.encoding] at he
    fits := fun busy => by simp at busy }

/-- A raise needs of the state before it only that IN is in canonical form. -/
theorem raised (hin : s.inBuf.wf = true) (c : CorruptFrame) : (s.discardOut.setDoneErr c).Inv where
  inWf := hin
  outWf := rfl
  flags := by simp [State.flagsAgree]
  length := by simp [State.lengthAgrees]
  dense := rfl
  decoder := fun hd => by simp [State.decoding] at hd
  encoder := fun he => by simp [State.encoding] at he
  fits := fun busy => by simp at busy

theorem startEncoder (h : s.Inv) : (s.startOperation .encode).startEncoder.Inv where
  inWf := h.inWf
  outWf := rfl
  flags := by simp [State.flagsAgree]
  length := by simp [State.lengthAgrees]
  dense := rfl
  decoder := fun hd => by simp [State.decoding] at hd
  encoder := fun _ => by simp
  fits := fun _ => hasRoom_zero_of_empty rfl

theorem startDecoder (h : s.Inv) (nonempty : 0 < s.inLen) : (s.startOperation .decode).startDecoder.Inv where
  inWf := h.inWf
  outWf := rfl
  flags := by simp [State.flagsAgree]
  length := by simp [State.lengthAgrees]
  dense := rfl
  decoder := fun _ => ⟨Nat.zero_le _, Nat.sub_add_cancel nonempty⟩
  encoder := fun he => by simp [State.encoding] at he
  fits := fun _ => hasRoom_zero_of_empty rfl

/-- While no operation is BUSY the host may change the operands as it likes, IN in canonical form. -/
theorem setOperands (h : s.Inv) (ready : s.phase ≠ .busy) (delim : Byte) (len : Nat) (cap : Option Nat) {m : Memory}
    (hm : m.wf = true) (r : ScanResult) :
    State.Inv { s with cfgDelim := delim, inLen := len, outCap := cap, inBuf := m, scanned := r } :=
  { h with
    inWf := hm
    decoder := fun hd => by simp [State.decoding, ready] at hd
    encoder := fun he => by simp [State.encoding, ready] at he
    fits := fun busy => absurd busy ready }

/-- The reset values, whatever the parameters and the host's data are (R222). -/
theorem resetBlock (s : State) : s.resetBlock.Inv where
  inWf := rfl
  outWf := rfl
  flags := by simp [State.flagsAgree, State.reset]
  length := by simp [State.lengthAgrees, State.reset]
  dense := rfl
  decoder := fun hd => by simp [State.decoding, State.reset] at hd
  encoder := fun he => by simp [State.encoding, State.reset] at he
  fits := fun busy => by simp [State.reset] at busy

end State.Inv

/-! ### The steps keep the invariant -/

theorem ExecEffect.inv {s t : State} {i : Instr} (h : ExecEffect s i t) (hs : s.Inv) : t.Inv := by
  cases h with
  | grpRaises | grpfRaises | rsv0 => exact .raised hs.inWf _
  | grpCopies L d wf place inside data room =>
    obtain ⟨busy, op, -⟩ := (atGroup_iff s).mp place
    exact (hs.pushOut busy room).advance ((decoding_iff _).mpr ⟨busy, op⟩) inside
  | grpfCopies d place inside data room =>
    obtain ⟨busy, op, -⟩ := (atGroup_iff s).mp place
    exact (hs.pushOut busy room).advance ((decoding_iff _).mpr ⟨busy, op⟩) inside
  | term place => exact hs.setDoneOk
  | encodeBusy | decodeBusy => exact hs
  | encodeStarts => exact hs.startEncoder
  | decodeRaises => exact .raised (s := s.startOperation .decode) hs.inWf _
  | decodeStarts _ _ nonempty => exact hs.startDecoder nonempty
  | split | chunk | pack => exact hs.withUnit _
  | scan D => exact hs.afterScan _

theorem encoding_iff (s : State) : s.encoding = true ↔ s.phase = .busy ∧ s.cmdOp = .encode := by
  simp [State.encoding]

theorem EncoderEffect.inv {s t : State} (h : EncoderEffect s t) (he : s.encoding = true) (hs : s.Inv) : t.Inv := by
  obtain ⟨busy, -⟩ := (encoding_iff s).mp he
  obtain ⟨-, len, data⟩ := hs.encoder he
  cases h with
  | closesRun more byte room => exact ((hs.pushOut busy room).setAcc (Nat.zero_le _) (by simp)).nextByte more
  | flushes x more byte ne full room =>
    exact ((hs.pushOut busy room).setAcc (by simp [maxChunk_eq]) (by simpa using ne)).nextByte more
  | accumulates x more byte ne notFull =>
    have joined : ∀ y ∈ s.acc ++ [x], y ≠ s.cfgDelim := by
      simp only [List.mem_append, List.mem_singleton]
      rintro y (hy | rfl)
      · exact data y hy
      · exact ne
    exact (hs.setAcc (by rw [List.length_append, List.length_singleton]; omega) joined).nextByte more
  | finishes atEnd room =>
    have closed := (hs.pushOut (bs := closeBytes s.chunkTail s.acc) busy (hasRoom_mono room (Nat.le_add_right _ _))).setAcc
      (a := []) (Nat.zero_le _) (by simp)
    exact (closed.pushOut (bs := [s.cfgDelim]) busy ((hasRoom_pushOut s _ 1).trans room)).setDoneOk

theorem EngineEffect.inv {s t : State} (h : EngineEffect s t) (hs : s.Inv) : t.Inv := by
  cases h with
  | idle => exact hs
  | encoder _ busy op effect => exact effect.inv ((encoding_iff s).mpr ⟨busy, op⟩) hs
  | frame _ _ _ _ _ effect => exact effect.inv hs

theorem RegisterEffect.inv {s t : State} {r : Reg} (h : RegisterEffect s r t) (hs : s.Inv) : t.Inv := by
  cases h with
  | delim v ready => exact hs.setOperands ready v _ _ hs.inWf _
  | command _ _ effect => exact effect.inv hs
  | inLen v ready => exact hs.setOperands ready _ v _ hs.inWf _

theorem HostEffect.inv {s t : State} {a : HostAction} (h : HostEffect s a t) (hs : s.Inv) : t.Inv := by
  cases h with
  | engine _ effect => exact effect.inv hs
  | issue _ _ _ effect => exact effect.inv hs
  | writeReg _ _ _ effect => exact effect.inv hs
  | writeRegAt _ _ _ _ _ effect => exact effect.inv hs
  | writeIn _ idx b ready => exact hs.setOperands ready _ _ _ (write_wf _ idx b hs.inWf) _
  | loadIn bs ready => exact hs.setOperands ready _ _ _ (ofBytes_wf bs) _
  | provideOut size ready => exact hs.setOperands ready _ _ size hs.inWf _
  | passFrame f ready => exact hs.setOperands ready _ _ _ (ofBytes_wf f) _
  | read | receive | sendFrame => exact { hs with }
  | reset => exact .resetBlock s

/-- Settles O35. -/
theorem resetIsARunState : Obligations.ResetIsARunState := .resetBlock State.reset

/-- Settles O36. -/
theorem everyStepKeepsTheInvariant : Obligations.EveryStepKeepsTheInvariant := by
  intro s t hs hstep
  cases hscript : s.script with
  | nil =>
    rw [step_of_idle_script hscript] at hstep
    exact (engineStep_effect hstep).inv hs
  | cons a rest =>
    rw [step_of_action hscript] at hstep
    exact (hostAct_effect hstep).inv (hs.setScript rest)

/-! ### OUT is readable where the invariant says it is filled (10_state.md R34) -/

theorem exists_read_of_mem_keys {m : Memory} {a : Nat} (h : a ∈ m.map Prod.fst) : ∃ b, m.read a = some b := by
  induction m with
  | nil => simp at h
  | cons c m ih =>
    obtain ⟨a', b'⟩ := c
    by_cases ha : a = a'
    · exact ⟨b', by simp [Memory.read, ha]⟩
    · obtain ⟨b, hb⟩ := ih (by simpa [ha] using h)
      exact ⟨b, by simpa [Memory.read, ha] using hb⟩

theorem State.Inv.exists_read_outBuf {s : State} (h : s.Inv) {idx : Nat} (hidx : idx < s.outIdx) :
    ∃ b, s.outBuf.read idx = some b :=
  exists_read_of_mem_keys (h.dense ▸ List.mem_range.mpr hidx)

/-- Settles O57. -/
theorem outIsReadableOnlyWhenDone : Obligations.OutIsReadableOnlyWhenDone := by
  intro s idx rest hs hscript
  rw [step_of_action hscript, hostAct, hostReadOut, readOutByte, setScript_phase, setScript_outLen, setScript_outBuf]
  refine ⟨fun done hidx => ?_, fun h => ?_⟩
  · have hlen : s.outLen = s.outIdx := hs.length.trans (if_pos done)
    obtain ⟨b, hb⟩ := hs.exists_read_outBuf (hlen ▸ hidx)
    rw [if_pos ⟨done, hidx⟩, hb]
    exact ⟨b, rfl, rfl⟩
  · rw [if_neg h, andThen_refused]

/-! ### Instances share nothing (60_exceptions.md R206) -/

theorem stepOne_eq_next (k : Nat) (ms ns : List State) :
    stepOne k ms = .next ns ↔
      (ms[k]? = none ∧ ns = ms) ∨ ∃ s t, ms[k]? = some s ∧ step s = .next t ∧ ns = ms.set k t := by
  unfold stepOne
  split
  · rename_i h
    simp [h, eq_comm]
  · rename_i s h
    rw [andThen_eq_next]
    simp [h, eq_comm]

theorem getElem?_of_stepOne {j k : Nat} {ms ns : List State} (h : stepOne k ms = .next ns) (hj : j ≠ k) :
    ns[j]? = ms[j]? := by
  obtain ⟨-, rfl⟩ | ⟨s, t, -, -, rfl⟩ := (stepOne_eq_next k ms ns).mp h
  · rfl
  · exact List.getElem?_set_ne (Ne.symm hj)

/-- Settles O41. -/
theorem instancesAreIndependent : Obligations.InstancesAreIndependent := by
  refine ⟨fun k ms ns h => ⟨?_, fun j hj => getElem?_of_stepOne h hj⟩, fun j k ms a b hjk hj hk => ?_⟩
  · obtain ⟨-, rfl⟩ | ⟨s, t, -, -, rfl⟩ := (stepOne_eq_next k ms ns).mp h
    · rfl
    · exact List.length_set
  · have hka : a[k]? = ms[k]? := getElem?_of_stepOne hj (Ne.symm hjk)
    obtain ⟨none, rfl⟩ | ⟨s, t, some, hstep, rfl⟩ := (stepOne_eq_next k a b).mp hk
    · exact ⟨ms, (stepOne_eq_next k ms ms).mpr (.inl ⟨hka ▸ none, rfl⟩), hj⟩
    · refine ⟨ms.set k t, (stepOne_eq_next k ms _).mpr (.inr ⟨s, t, hka ▸ some, hstep, rfl⟩), ?_⟩
      have hset : (ms.set k t)[j]? = ms[j]? := List.getElem?_set_ne (Ne.symm hjk)
      obtain ⟨none', rfl⟩ | ⟨s', t', some', hstep', rfl⟩ := (stepOne_eq_next j ms a).mp hj
      · exact (stepOne_eq_next j _ _).mpr (.inl ⟨hset.trans none', rfl⟩)
      · exact (stepOne_eq_next j _ _).mpr (.inr ⟨s', t', hset.trans some', hstep', List.set_comm _ _ hjk⟩)

end Sys2Proof.Machine

/-! ## The step machines compute ENCODE and DECODE (41_encoder.md R106, 42_decoder.md R124 to R132)

Both proofs are simulations: what OUT holds, followed by what the operation still has to write, is at every step the whole
result. -/

namespace Sys2Proof.Machine

/-! ### Steps that go on -/

theorem appendOut_of_room {s : State} {bs : List Byte} (room : s.hasRoom bs.length = true) :
    appendOut bs s = .next (s.pushOut bs) := (appendOut_eq_next _ _ _).mpr ⟨room, rfl⟩

/-- Each case of `EncoderEffect` is what the encoder does there. -/
theorem encoderStep_of_effect {s t : State} (h : EncoderEffect s t) : encoderStep s = .next t := by
  cases h with
  | closesRun more byte room =>
    have close := (closeRun_eq_next _ _).mpr ⟨room, rfl⟩
    rw [encoderStep, if_pos more, (readIn_eq_next _ _ _).mpr ⟨more, byte⟩, andThen_next, if_pos rfl, close, andThen_next]
  | flushes x more byte data full room =>
    rw [encoderStep, if_pos more, (readIn_eq_next _ _ _).mpr ⟨more, byte⟩, andThen_next, if_neg data, accumulate,
      if_pos full, appendOut_of_room room, andThen_next, andThen_next]
  | accumulates x more byte data notFull =>
    rw [encoderStep, if_pos more, (readIn_eq_next _ _ _).mpr ⟨more, byte⟩, andThen_next, if_neg data, accumulate,
      if_neg notFull, andThen_next]
  | finishes atEnd room =>
    have close := (closeRun_eq_next s _).mpr ⟨hasRoom_mono room (Nat.le_add_right _ 1), rfl⟩
    have room' : ((s.pushOut (closeBytes s.chunkTail s.acc)).setAcc []).hasRoom [s.cfgDelim].length = true :=
      (hasRoom_pushOut s _ 1).trans room
    rw [encoderStep, if_neg (by omega), if_pos atEnd, finishEncode, close, andThen_next, setAcc_cfgDelim,
      pushOut_cfgDelim, appendOut_of_room room', andThen_next]

/-- The delimiter that a group with length byte `L` puts behind its data: none at the end of the frame or behind a full group
(R128, R130). -/
def separator (L : Byte) (s : State) : List Byte :=
  if s.pos + L.toNat < s.last ∧ L.toNat < 255 then [s.cfgDelim] else []

/-- Behind a group stands the terminal delimiter, and another length byte where a delimiter is put: what the group stores stays
below `last`. -/
theorem stored_length {L : Byte} {s : State} {d : List Byte} (h0 : L.toNat ≠ 0) (inside : s.pos + L.toNat ≤ s.last)
    (hd : d.length = L.toNat - 1) :
    (d ++ separator L s).length ≤ L.toNat ∧ s.pos + (d ++ separator L s).length < s.last := by
  rw [List.length_append, hd, separator]
  split
  · rw [List.length_singleton]
    omega
  · rw [List.length_nil]
    omega

section group
variable {s : State} {L : Byte} (place : s.atGroup = true)
include place

/-- A length byte that is 0 or counts past the frame raises, whichever instruction it is (R127, R129). -/
theorem exec_decodeGroupByte_raises (bad : L.toNat = 0 ∨ s.last < s.pos + L.toNat) :
    exec (decodeGroupByte L) s = .next (s.discardOut.setDoneErr .invalidChunkLength) := by
  by_cases h0 : L = 0
  · subst h0
    exact exec_rsv0 place
  · have past : s.last < s.pos + L.toNat := bad.resolve_left (toNat_ne_zero h0)
    obtain ⟨rfl, hi⟩ | ⟨wf, hi⟩ := decodeGroupByte_cases h0
    · rw [hi, exec_grpf place, copyGroup_raises _ _ past]
    · rw [hi, exec_grp wf place, copyGroup_raises _ _ past]

theorem exec_decodeGroupByte_copies {d : List Byte} (h0 : L ≠ 0) (inside : s.pos + L.toNat ≤ s.last)
    (hlast : s.last < s.inLen) (data : s.inBuf.readRange (s.pos + 1) (L.toNat - 1) = some d)
    (room : s.hasRoom (d ++ separator L s).length = true) :
    exec (decodeGroupByte L) s = .next ((s.pushOut (d ++ separator L s)).advance L) := by
  obtain ⟨rfl, hi⟩ | ⟨wf, hi⟩ := decodeGroupByte_cases h0
  · have hsep : separator Config.full s = [] := if_neg (by simp [full_toNat])
    rw [hsep] at room ⊢
    rw [hi, exec_grpf place, copyGroup_copies _ inside hlast data room]
  · have hsep : reinserted L s = separator L s := by
      have := (grp_wf_iff L).mp wf
      exact (if_congr (and_iff_left (by omega)) rfl rfl).symm
    rw [hi, exec_grp wf place, hsep, copyGroup_copies _ inside hlast data room]

end group

/-! ### The input during an operation -/

theorem readRange_congr {m m' : Memory} (h : ∀ a, m'.read a = m.read a) (a n : Nat) :
    m'.readRange a n = m.readRange a n := by
  induction n generalizing a with
  | zero => rfl
  | succ n ih => simp only [Memory.readRange, h, ih]

section operation
variable {s t : State} (h : sameInput s t)
include h

theorem input_of_sameInput : t.input = s.input := by
  obtain ⟨-, -, -, -, -, hlen, hread⟩ := h
  rw [State.input, hlen, readRange_congr hread, State.input]

theorem fitsOut_of_sameInput {n : Nat} (fits : s.fitsOut n) : t.fitsOut n := by
  obtain ⟨-, -, -, hcap, -⟩ := h
  exact fun c hc => fits c (hcap ▸ hc)

theorem cfgDelim_of_sameInput : t.cfgDelim = s.cfgDelim := by
  obtain ⟨-, -, -, -, hdelim, -⟩ := h
  exact hdelim

theorem chunkTail_of_sameInput : t.chunkTail = s.chunkTail := by
  obtain ⟨htail, -⟩ := h
  exact htail

end operation

/-- A run's last step. -/
theorem runSteps_succ_last (k : Nat) (s : State) : runSteps (k + 1) s = andThen (runSteps k s) step := by
  induction k generalizing s with
  | zero =>
    rw [runSteps_succ, runSteps_zero, andThen_next]
    cases step s <;> rfl
  | succ k ih =>
    rw [runSteps_succ, runSteps_succ k, andThen_assoc]
    congr 1
    exact funext ih

/-! ### ENCODE -/

theorem splitRuns_append {D : Byte} {p xs r : List Byte} {rs : List (List Byte)} (hp : D ∉ p)
    (hxs : splitRuns D xs = r :: rs) : splitRuns D (p ++ xs) = (p ++ r) :: rs := by
  induction p with
  | nil => exact hxs
  | cons x p ih =>
    obtain ⟨hx, hp⟩ := not_or.mp (mt List.mem_cons.mpr hp)
    exact splitRuns_data (Ne.symm hx) (ih hp)

/-- Closing a run writes its chunks: under `pad` a full one has an empty one behind it. -/
theorem flatMap_packChunk_chunkRun (tail : ChunkTail) {acc : List Byte} (len : acc.length ≤ Config.maxChunk) :
    (chunkRun tail acc).flatMap packChunk = closeBytes tail acc := by
  obtain hlt | heq := len.lt_or_eq
  · simp [chunkRun_short tail hlt, closeBytes, hlt.ne]
  · cases tail <;> simp [chunkRun_full _ heq, closeBytes, heq, packChunk]

section frame
variable (tail : ChunkTail) {D : Byte} {acc : List Byte} (hD : D ∉ acc)
include hD

theorem encodeFrame_last_run (len : acc.length ≤ Config.maxChunk) :
    encodeFrame tail D acc = closeBytes tail acc ++ [D] := by
  rw [encodeFrame, allChunks_of_not_mem hD, flatMap_packChunk_chunkRun tail len]

theorem encodeFrame_run (len : acc.length ≤ Config.maxChunk) (xs : List Byte) :
    encodeFrame tail D (acc ++ D :: xs) = closeBytes tail acc ++ encodeFrame tail D xs := by
  simp only [encodeFrame, allChunks, splitRuns_run hD, List.flatMap_cons, List.flatMap_append,
    flatMap_packChunk_chunkRun tail len, List.append_assoc]

/-- A full chunk with a data byte behind it is written at once, and the run goes on behind it. -/
theorem encodeFrame_full_chunk (full : acc.length = Config.maxChunk) {x : Byte} (hx : x ≠ D) (xs : List Byte) :
    encodeFrame tail D (acc ++ x :: xs) = packChunk acc ++ encodeFrame tail D (x :: xs) := by
  obtain ⟨r, rs, hr⟩ := List.exists_cons_of_ne_nil (splitRuns_ne_nil D xs)
  have behind := splitRuns_data hx hr
  have long : Config.maxChunk < (acc ++ x :: r).length := by simp [full]
  have cut : chunkRun tail (acc ++ x :: r) = acc :: chunkRun tail (x :: r) := by
    rw [chunkRun_long tail long, ← full, List.take_left, List.drop_left]
  simp only [encodeFrame, allChunks, splitRuns_append hD behind, behind, List.flatMap_cons, cut, List.cons_append,
    List.append_assoc]

end frame

/-- The ENCODE of `b` that started in `s` has looked at `k` bytes: OUT and the frame of what is accumulated and still to be read
make up the whole frame. -/
structure EncodeProgress (s : State) (b : List Byte) (k : Nat) (t : State) : Prop where
  input : sameInput s t
  script : t.script = []
  busy : t.phase = .busy
  op : t.cmdOp = .encode
  index : t.i = k
  len : t.acc.length ≤ Config.maxChunk
  data : s.cfgDelim ∉ t.acc
  output : ∃ o, t.output = some o ∧
    o ++ encodeFrame s.chunkTail s.cfgDelim (t.acc ++ b.drop k) = encodeFrame s.chunkTail s.cfgDelim b

theorem startEncoder_progress {s : State} (hs : s.script = []) (b : List Byte) :
    EncodeProgress s b 0 (s.startOperation .encode).startEncoder where
  input := sameInput_refl s
  script := hs
  busy := rfl
  op := rfl
  index := rfl
  len := Nat.zero_le _
  data := by simp
  output := ⟨[], rfl, rfl⟩

/-- What is still to be written has room. -/
theorem hasRoom_of_remaining {t : State} {o bs rest whole : List Byte} (ho : t.output = some o)
    (hwhole : o ++ (bs ++ rest) = whole) (fits : t.fitsOut whole.length) : t.hasRoom bs.length = true := by
  refine hasRoom_of_fits fits ?_
  rw [← hwhole, List.length_append, List.length_append, output_length ho]
  omega

namespace EncodeProgress
variable {s t : State} {b : List Byte} {k : Nat}

theorem step_eq (h : EncodeProgress s b k t) {u : State} (effect : EncoderEffect t u) : step t = .next u := by
  rw [step_of_idle_script h.script, engineStep, if_pos h.busy, h.op]
  exact encoderStep_of_effect effect

theorem exists_step (h : EncodeProgress s b k t) (hb : s.input = some b)
    (fits : s.fitsOut (encodeFrame s.chunkTail s.cfgDelim b).length) (hk : k < b.length) :
    ∃ u, step t = .next u ∧ EncodeProgress s b (k + 1) u := by
  have hb' := (input_of_sameInput h.input).trans hb
  have more : t.i < t.inLen := by rw [h.index, ← input_length hb']; exact hk
  have byte : t.inBuf.read t.i = some b[k] := by rw [h.index]; exact read_of_input hb' hk
  have delim := cfgDelim_of_sameInput h.input
  have tail := chunkTail_of_sameInput h.input
  obtain ⟨o, ho, hwhole⟩ := h.output
  rw [List.drop_eq_getElem_cons hk] at hwhole
  by_cases hx : b[k] = s.cfgDelim
  · have hclose : closeBytes s.chunkTail t.acc = closeBytes t.chunkTail t.acc := by rw [tail]
    rw [hx, encodeFrame_run _ h.data h.len, hclose] at hwhole
    have room := hasRoom_of_remaining ho hwhole (fitsOut_of_sameInput h.input fits)
    exact ⟨_, h.step_eq (.closesRun more (delim ▸ hx ▸ byte) room),
      { h with
        index := congrArg (· + 1) h.index
        len := Nat.zero_le _
        data := by simp
        output := ⟨_, output_pushOut ho _, by simpa using hwhole⟩ }⟩
  · by_cases full : t.acc.length = Config.maxChunk
    · rw [encodeFrame_full_chunk _ h.data full hx] at hwhole
      have room := hasRoom_of_remaining ho hwhole (fitsOut_of_sameInput h.input fits)
      exact ⟨_, h.step_eq (.flushes _ more byte (delim ▸ hx) full room),
        { h with
          index := congrArg (· + 1) h.index
          len := by simp [maxChunk_eq]
          data := by simpa using Ne.symm hx
          output := ⟨_, output_pushOut ho _, by simpa using hwhole⟩ }⟩
    · have notFull := Nat.lt_of_le_of_ne h.len full
      exact ⟨_, h.step_eq (.accumulates _ more byte (delim ▸ hx) full),
        { h with
          index := congrArg (· + 1) h.index
          len := by simpa using notFull
          data := by simpa using ⟨h.data, Ne.symm hx⟩
          output := ⟨_, ho, by simpa using hwhole⟩ }⟩

theorem exists_run (hs : s.script = []) (hb : s.input = some b)
    (fits : s.fitsOut (encodeFrame s.chunkTail s.cfgDelim b).length) (hk : k ≤ b.length) :
    ∃ u, runSteps k (s.startOperation .encode).startEncoder = .next u ∧ EncodeProgress s b k u := by
  induction k with
  | zero => exact ⟨_, rfl, startEncoder_progress hs b⟩
  | succ k ih =>
    obtain ⟨t, ht, progress⟩ := ih (by omega)
    obtain ⟨u, hu, progress'⟩ := progress.exists_step hb fits hk
    exact ⟨u, by rw [runSteps_succ_last, ht, andThen_next, hu], progress'⟩

/-- The last step closes the last run and writes the terminal delimiter. -/
theorem exists_last_step (h : EncodeProgress s b b.length t) (hb : s.input = some b)
    (fits : s.fitsOut (encodeFrame s.chunkTail s.cfgDelim b).length) :
    ∃ u, step t = .next u ∧ u.phase = .doneOk ∧ u.cause = none ∧ u.outLen = u.outIdx ∧
      u.output = some (encodeFrame s.chunkTail s.cfgDelim b) ∧ sameInput s u := by
  have hb' := (input_of_sameInput h.input).trans hb
  have delim := cfgDelim_of_sameInput h.input
  have tail := chunkTail_of_sameInput h.input
  obtain ⟨o, ho, hwhole⟩ := h.output
  have hlast : o ++ (closeBytes t.chunkTail t.acc ++ [t.cfgDelim]) = encodeFrame s.chunkTail s.cfgDelim b := by
    rw [← hwhole, List.drop_length, List.append_nil, encodeFrame_last_run _ h.data h.len, tail, delim]
  have room := hasRoom_of_remaining (rest := []) ho (by rw [List.append_nil]; exact hlast)
    (fitsOut_of_sameInput h.input fits)
  rw [List.length_append, List.length_singleton] at room
  refine ⟨_, h.step_eq (.finishes (h.index.trans (input_length hb')) room), rfl, rfl, rfl, ?_, h.input⟩
  rw [← hlast, ← List.append_assoc]
  exact output_pushOut (s := (t.pushOut (closeBytes t.chunkTail t.acc)).setAcc []) (output_pushOut ho _) [t.cfgDelim]

end EncodeProgress

/-- Settles O33: one step for each byte of IN, and one that finishes. -/
theorem encoderMachineComputesEncode : Obligations.EncoderMachineComputesEncode := by
  intro s b hs ready notLong hb fits
  obtain ⟨t, ht, progress⟩ := EncodeProgress.exists_run hs hb fits (Nat.le_refl b.length)
  obtain ⟨u, hu, hphase, hcause, hlen, hout, hinput⟩ := progress.exists_last_step hb fits
  refine ⟨_, u, exec_encode_of_ready ready notLong, by rw [runSteps_succ_last, ht, andThen_next, hu], hphase, hcause,
    by rw [hlen, output_length hout], hout, hinput, fun k hk => ?_⟩
  obtain ⟨v, hv, progress'⟩ := EncodeProgress.exists_run hs hb fits hk
  exact ⟨v, hv, progress'.busy⟩

/-! ### DECODE -/

/-- The DECODE of `f` that started in `s` stands at `pos` and has decoded `o`. -/
structure DecodeProgress (s : State) (f : List Byte) (pos : Nat) (o : List Byte) (t : State) : Prop where
  input : sameInput s t
  script : t.script = []
  decoding : t.decoding = true
  index : t.pos = pos
  nonempty : 0 < f.length
  last : t.last = f.length - 1
  inside : pos ≤ f.length - 1
  output : t.output = some o
  short : o.length ≤ pos

theorem startDecoder_progress {s : State} {f : List Byte} (hs : s.script = []) (hf : s.input = some f)
    (nonempty : 0 < s.inLen) : DecodeProgress s f 0 [] (s.startOperation .decode).startDecoder where
  input := sameInput_refl s
  script := hs
  decoding := rfl
  index := rfl
  nonempty := input_length hf ▸ nonempty
  last := congrArg (· - 1) (input_length hf).symm
  inside := Nat.zero_le _
  output := rfl
  short := Nat.le_refl _

namespace DecodeProgress
variable {s t : State} {f o : List Byte} {pos : Nat}

theorem step_eq (h : DecodeProgress s f pos o t) {i : Instr} (hi : fetch t = .next i) : step t = exec i t := by
  rw [step_of_idle_script h.script, engineStep_of_fetch h.decoding hi]

theorem atGroup (h : DecodeProgress s f pos o t) (hpos : pos < f.length - 1) : t.atGroup = true := by
  obtain ⟨busy, op⟩ := (decoding_iff t).mp h.decoding
  exact (atGroup_iff t).mpr ⟨busy, op, by rwa [h.index, h.last]⟩

/-- At `last` the operation ends with what is in OUT (R131). -/
theorem step_term (h : DecodeProgress s f pos o t) (hpos : pos = f.length - 1) : step t = .next t.setDoneOk := by
  obtain ⟨busy, op⟩ := (decoding_iff t).mp h.decoding
  have hend : t.pos = t.last := (h.index.trans hpos).trans h.last.symm
  rw [h.step_eq (fetch_term hend), exec_term_of_atTerm ((atTerm_iff t).mpr ⟨busy, op, hend⟩)]

/-- Before `last` the length byte at `pos` is dispatched. -/
theorem step_group (h : DecodeProgress s f pos o t) (hf : s.input = some f) (hpos : pos < f.length - 1) :
    step t = exec (decodeGroupByte (f.getD pos 0)) t := by
  have hf' := (input_of_sameInput h.input).trans hf
  have hlt : pos < f.length := by omega
  have hlast : t.last < t.inLen := by
    rw [h.last, ← input_length hf']
    exact Nat.sub_lt h.nonempty Nat.one_pos
  have hL : t.inBuf.read t.pos = some (f.getD pos 0) := by
    rw [h.index, read_of_input hf' hlt, List.getD_eq_getElem _ _ hlt]
  exact h.step_eq (fetch_group (by rwa [h.index, h.last]) hlast hL)

/-- A legal group takes the decoder as far as it takes the loop of R121, and what it appends has room. -/
theorem exists_step (h : DecodeProgress s f pos o t) (hf : s.input = some f) (fits : s.fitsOut (f.length - 2))
    (hpos : pos < f.length - 1) {L : Byte} (hL : f.getD pos 0 = L) (h0 : L.toNat ≠ 0)
    (inside : pos + L.toNat ≤ f.length - 1) :
    ∃ u, step t = .next u ∧ DecodeProgress s f (pos + L.toNat)
      (o ++ (f.drop (pos + 1)).take (L.toNat - 1) ++
        if pos + L.toNat < f.length - 1 ∧ L.toNat < 255 then [s.cfgDelim] else []) u := by
  have hf' := (input_of_sameInput h.input).trans hf
  have data : t.inBuf.readRange (t.pos + 1) (L.toNat - 1) = some ((f.drop (pos + 1)).take (L.toNat - 1)) := by
    rw [h.index]
    exact readRange_of_input hf' (by omega)
  have hsep : separator L t = if pos + L.toNat < f.length - 1 ∧ L.toNat < 255 then [s.cfgDelim] else [] := by
    rw [separator, h.index, h.last, cfgDelim_of_sameInput h.input]
  obtain ⟨hcount, hfit⟩ := stored_length h0 (by rwa [h.index, h.last]) (readRange_length data)
  have hshort := h.short
  rw [h.index, h.last] at hfit
  have room := hasRoom_of_fits (fitsOut_of_sameInput h.input fits) (s := t)
    (k := ((f.drop (pos + 1)).take (L.toNat - 1) ++ separator L t).length) (by rw [← output_length h.output]; omega)
  have hL0 : L ≠ 0 := by
    rintro rfl
    exact h0 rfl
  have hcopy := exec_decodeGroupByte_copies (h.atGroup hpos) hL0 (by rwa [h.index, h.last])
    (by rw [h.last, ← input_length hf']; omega) data room
  refine ⟨_, by rw [h.step_group hf hpos, hL, hcopy], ?_⟩
  rw [← hsep, List.append_assoc]
  exact { h with
    index := congrArg (· + L.toNat) h.index
    inside := inside
    output := output_pushOut h.output _
    short := by rw [List.length_append]; omega }

/-- At `last` the machine and the loop of R121 both end. -/
theorem exists_run_at_last (h : DecodeProgress s f pos o t) (hpos : pos = f.length - 1) (n : Nat) :
    ∃ u, runSteps 1 t = .next u ∧ showsResult (decodeLoop s.cfgDelim f (f.length - 1) n pos o) u ∧ sameInput s u := by
  refine ⟨t.setDoneOk, by rw [runSteps_succ, h.step_term hpos, andThen_next, runSteps_zero], ?_, h.input⟩
  rw [decodeLoop_end _ _ _ _ _ _ hpos.ge]
  exact ⟨rfl, rfl, (output_length h.output).symm, h.output⟩

/-- From any point on, the machine ends as the loop of R121 does. -/
theorem exists_run (h : DecodeProgress s f pos o t) (hf : s.input = some f) (fits : s.fitsOut (f.length - 2)) {n : Nat}
    (hn : f.length - 1 ≤ pos + n) :
    ∃ k ≤ f.length - pos, ∃ u, runSteps k t = .next u ∧
      showsResult (decodeLoop s.cfgDelim f (f.length - 1) n pos o) u ∧ sameInput s u := by
  have hne := h.nonempty
  have hinside := h.inside
  induction n generalizing pos o t with
  | zero => exact ⟨1, by omega, h.exists_run_at_last (by omega) 0⟩
  | succ n ih =>
    obtain hpos | hpos := hinside.lt_or_eq
    · obtain ⟨bad, herr⟩ | ⟨h0, inside, hgroup⟩ := decodeLoop_cases s.cfgDelim f (f.length - 1) n pos o hpos
      · have hraise := exec_decodeGroupByte_raises (h.atGroup hpos) (L := f.getD pos 0) (by rwa [h.index, h.last])
        refine ⟨1, by omega, t.discardOut.setDoneErr .invalidChunkLength, ?_, ?_, h.input⟩
        · rw [runSteps_succ, h.step_group hf hpos, hraise, andThen_next, runSteps_zero]
        · rw [herr]
          exact ⟨rfl, rfl, rfl⟩
      · obtain ⟨u, hu, progress⟩ := h.exists_step hf fits hpos rfl h0 inside
        obtain ⟨k, hk, v, hv, hshows, hinput⟩ := ih progress (by omega) inside
        refine ⟨k + 1, by omega, v, by rw [runSteps_succ, hu, andThen_next, hv], ?_, hinput⟩
        rw [hgroup]
        exact hshows
    · exact ⟨1, by omega, h.exists_run_at_last hpos _⟩

end DecodeProgress

/-- Settles O34. -/
theorem decoderMachineComputesDecode : Obligations.DecoderMachineComputesDecode := by
  intro s f hs ready notLong hf fits
  have hlen := input_length hf
  by_cases hempty : s.inLen = 0
  · obtain rfl : f = [] := List.length_eq_zero_iff.mp (by omega)
    exact ⟨_, _, exec_decode_empty ready notLong hempty, ⟨0, Nat.zero_le _, rfl⟩, ⟨rfl, rfl, rfl⟩, sameInput_refl s⟩
  · have nonempty := Nat.pos_of_ne_zero hempty
    have hlt : s.inLen - 1 < f.length := by omega
    have hlast : f.getLast? = some f[s.inLen - 1] := by
      rw [List.getLast?_eq_getElem?, hlen, List.getElem?_eq_getElem hlt]
    have hstart := exec_decode_last_byte ready notLong nonempty (read_of_input hf hlt)
    by_cases hdelim : f[s.inLen - 1] = s.cfgDelim
    · rw [if_pos hdelim] at hstart
      obtain ⟨k, hk, u, hrun, hshows, hinput⟩ :=
        (startDecoder_progress hs hf nonempty).exists_run hf fits (n := f.length) (by omega)
      refine ⟨_, u, hstart, ⟨k, hk, hrun⟩, ?_, hinput⟩
      simpa only [decodeFrame, hlast, hdelim, if_true] using hshows
    · rw [if_neg hdelim] at hstart
      have hresult : decodeFrame s.cfgDelim f = .err .missingTerminalDelimiter := by
        simp only [decodeFrame, hlast, hdelim, if_false]
      rw [hresult]
      exact ⟨_, _, hstart, ⟨0, Nat.zero_le _, rfl⟩, ⟨rfl, rfl, rfl⟩, sameInput_refl s⟩

end Sys2Proof.Machine

/-! ## The engine goes on wherever its input is readable and OUT has room (44_laws.md section 5) -/

namespace Sys2Proof.Machine

theorem closeBytes_length_le (tail : ChunkTail) {acc : List Byte} (len : acc.length ≤ Config.maxChunk) :
    (closeBytes tail acc).length ≤ 256 := by
  rw [maxChunk_eq] at len
  rw [closeBytes, List.length_append, packChunk_length]
  split
  · rw [List.length_singleton]
    omega
  · rw [List.length_nil]
    omega

theorem exists_encoderEffect {s : State} {b : List Byte} (hb : s.input = some b) (inRange : s.i ≤ s.inLen)
    (len : s.acc.length ≤ Config.maxChunk) (room : s.hasRoom 257 = true) : ∃ t, EncoderEffect s t := by
  have hclose := closeBytes_length_le s.chunkTail len
  obtain more | atEnd := inRange.lt_or_eq
  · have hlt : s.i < b.length := input_length hb ▸ more
    have byte := read_of_input hb hlt
    by_cases hx : b[s.i] = s.cfgDelim
    · exact ⟨_, .closesRun more (hx ▸ byte) (hasRoom_mono room (by omega))⟩
    · by_cases full : s.acc.length = Config.maxChunk
      · exact ⟨_, .flushes _ more byte hx full (hasRoom_mono room (by rw [packChunk_length, full, maxChunk_eq]; omega))⟩
      · exact ⟨_, .accumulates _ more byte hx full⟩
  · exact ⟨_, .finishes atEnd (hasRoom_mono room (by omega))⟩

theorem exists_decoder_step {s : State} {f : List Byte} (hf : s.input = some f) (hd : s.decoding = true)
    (inRange : s.pos ≤ s.last) (hlast : s.last + 1 = s.inLen) (room : s.hasRoom 257 = true) :
    ∃ t, engineStep s = .next t := by
  obtain ⟨busy, op⟩ := (decoding_iff s).mp hd
  have hlen := input_length hf
  obtain hpos | hend := inRange.lt_or_eq
  · have place : s.atGroup = true := (atGroup_iff s).mpr ⟨busy, op, hpos⟩
    have byte := read_of_input hf (k := s.pos) (by omega)
    rw [engineStep_of_fetch hd (fetch_group hpos (by omega) byte)]
    by_cases bad : f[s.pos].toNat = 0 ∨ s.last < s.pos + f[s.pos].toNat
    · exact ⟨_, exec_decodeGroupByte_raises place bad⟩
    · obtain ⟨h0, inside⟩ := not_or.mp bad
      have hL0 : f[s.pos] ≠ 0 := fun h => h0 (by rw [h]; rfl)
      have data := readRange_of_input hf (k := s.pos + 1) (n := f[s.pos].toNat - 1) (by omega)
      obtain ⟨hcount, -⟩ := stored_length (s := s) h0 (by omega) (readRange_length data)
      have hL := f[s.pos].isLt
      exact ⟨_, exec_decodeGroupByte_copies place hL0 (by omega) (by omega) data (hasRoom_mono room (by omega))⟩
  · exact ⟨_, (engineStep_of_fetch hd (fetch_term hend)).trans
      (exec_term_of_atTerm ((atTerm_iff s).mpr ⟨busy, op, hend⟩))⟩

/-- Settles O37. -/
theorem engineNeverStops : Obligations.EngineNeverStops := by
  intro s b hs hscript hb room
  rw [step_of_idle_script hscript]
  by_cases busy : s.phase = .busy
  · cases op : s.cmdOp with
    | encode =>
      obtain ⟨inRange, len, -⟩ := hs.encoder ((encoding_iff s).mpr ⟨busy, op⟩)
      obtain ⟨t, effect⟩ := exists_encoderEffect hb inRange len room
      exact ⟨t, by rw [engineStep, if_pos busy, op]; exact encoderStep_of_effect effect⟩
    | decode =>
      have hd := (decoding_iff s).mpr ⟨busy, op⟩
      obtain ⟨inRange, hlast⟩ := hs.decoder hd
      exact exists_decoder_step hb hd inRange hlast room
  · exact ⟨s, if_neg busy⟩

end Sys2Proof.Machine
